-- ==== Sys2Proof/Word.lean ====
section
/-! DEFINITION. The bit-vector widths of the engine (spec/00_scope.md R7): bytes, the 16-bit CRC accumulator and
offsets, and the 32-bit bus registers. -/

namespace Sys2Proof

/-- A byte of a byte string or of a buffer (R11). -/
abbrev Byte := BitVec 8

/-- A 16-bit value: the CRC accumulator, a bus offset, an RTU field (R7). -/
abbrev Half := BitVec 16

/-- A 32-bit bus register or bus data word (R7). -/
abbrev Word := BitVec 32

end Sys2Proof
end

