-- ==== Sys2Proof/Syntax.lean ====
section
/-! DEFINITION. The instructions of the engine: one constructor for each row of spec/opcode_table.json. An
"instruction" of the engine is a command or a register-triggered operation (spec/00_scope.md R1); the bus access
that carries it is `BusAccess`. -/

namespace Sys2Proof

/-- The widths of a bus data access (R7). -/
inductive Width where
  | w8 | w16 | w32
  deriving DecidableEq, Repr

/-- The direction of a bus access: `MemRead` or `MemWrite` (R12). -/
inductive Dir where
  | read | write
  deriving DecidableEq, Repr

/-- The three byte buffers (R54). -/
inductive Buffer where
  | src | tx | frp
  deriving DecidableEq, Repr

/-- The four argument registers (R37). -/
inductive ArgReg where
  | arg0 | arg1 | arg2 | arg3
  deriving DecidableEq, Repr

/-- The 29 registers of the register region (R30, R81, R290). -/
inductive Reg where
  | ctrl | status | irqEn | cmd
  | arg0 | arg1 | arg2 | arg3
  | result | reslen
  | crcAcc | crcDin
  | addAcc | addDin | addHex
  | rxcount | rxpush
  | frKind | frAddr | frFunc | frStart | frLen | frCksum
  | cntOk | cntCkerr | cntTrunc | cntMalf | cntRxovf | cntOvr
  deriving DecidableEq, Repr

/-- A bus access as the engine sees it: direction, width, offset in the 64 KiB window and write data (R125's
"encoding (offset, width, data)"). The data of a read is ignored. -/
structure BusAccess where
  dir    : Dir
  width  : Width
  offset : Half
  data   : Word
  deriving DecidableEq, Repr

/-- The instructions, in the order of spec/opcode_table.json. -/
inductive Instr where
  /-- `NOP`, OP 0x00 (R296). -/
  | nop
  /-- `CRC_INIT`, OP 0x01 (R153). -/
  | crcInit
  /-- `CRC_BUF`, OP 0x02 (R155). -/
  | crcBuf
  /-- `ADD_INIT`, OP 0x03 (R157). -/
  | addInit
  /-- `ADD_BUF`, OP 0x04 (R159). -/
  | addBuf
  /-- `ENC_ASCII`, OP 0x10 (R182). -/
  | encAscii
  /-- `ENC_RTU_RD`, OP 0x11 (R221). -/
  | encRtuRd
  /-- `ENC_RTU_WR`, OP 0x12 (R223). -/
  | encRtuWr
  /-- `DEC_ASCII`, OP 0x20 (R186). -/
  | decAscii
  /-- `DEC_RTU`, OP 0x21 (R225). -/
  | decRtu
  /-- `DEC_ASCII_LEN`, OP 0x22 (R187). -/
  | decAsciiLen
  /-- `SYNC_RESET`, OP 0x30 (R260). -/
  | syncReset
  /-- `FRAME_ACK`, OP 0x31 (R259). -/
  | frameAck
  /-- `CNT_CLEAR`, OP 0x32 (R297). -/
  | cntClear
  /-- `CRC_BYTE`: a write to `CRC_DIN`; `b` is data[7:0] (R154). -/
  | crcByte (b : Byte)
  /-- `ADD_BYTE`: a write to `ADD_DIN`; `b` is data[7:0] (R158). -/
  | addByte (b : Byte)
  /-- `SYNC_PUSH`: a write to `RXPUSH`; `b` is data[7:0] (R251). -/
  | syncPush (b : Byte)
  /-- `CTRL_WRITE`; `v` is data[2:0] (R291). -/
  | ctrlWrite (v : BitVec 3)
  /-- `STATUS_W1C`; `clear` is data[6:1] (R292). -/
  | statusW1c (clear : BitVec 6)
  /-- `IRQEN_WRITE`; `en` is data[6:0] (R293). -/
  | irqenWrite (en : BitVec 7)
  /-- `ARG_WRITE` of `ARGn`; `v` is data[31:0] (R294). -/
  | argWrite (n : ArgReg) (v : Word)
  /-- `REG_READ` (R290). -/
  | regRead (r : Reg)
  /-- `BUF_READ` of `w` bytes at index `i` of buffer `b` (R298). -/
  | bufRead (b : Buffer) (i : BitVec 14) (w : Width)
  /-- `SRC_WRITE` of the `w` low bytes of `v` at index `i` of `SRC` (R299). -/
  | srcWrite (i : BitVec 14) (w : Width) (v : Word)
  deriving DecidableEq, Repr

/-- The number of bytes of an access width (R86). -/
def Width.bytes : Width → Nat
  | .w8 => 1
  | .w16 => 2
  | .w32 => 4

end Sys2Proof
end

