-- ==== Sys2Proof/WellFormed.lean ====
section
/-! DEFINITION. The instructions that an encoding of the spec can carry: a buffer access is naturally aligned
(spec/20_memory.md R83), and a buffer write carries no bit above its width (R299 stores `w` bytes of the data). -/

namespace Sys2Proof

/-- Natural alignment of an index for a width (R83). Every window is 16 KiB aligned, so the index is aligned
exactly when the offset is. -/
def Width.aligned (w : Width) (i : Nat) : Bool := i % w.bytes == 0

/-- Bits of `v` above the width are 0. -/
def Width.fits (w : Width) (v : Word) : Bool := decide (v.toNat < 256 ^ w.bytes)

/-- An instruction that some bus access carries (log entry 7). -/
def Instr.wellFormed : Instr → Bool
  | .bufRead _ i w => w.aligned i.toNat
  | .srcWrite i w v => w.aligned i.toNat && w.fits v
  | .nop | .crcInit | .crcBuf | .addInit | .addBuf | .encAscii | .encRtuRd | .encRtuWr
  | .decAscii | .decRtu | .decAsciiLen | .syncReset | .frameAck | .cntClear => true
  | .crcByte _ | .addByte _ | .syncPush _ | .ctrlWrite _ | .statusW1c _ | .irqenWrite _ => true
  | .argWrite _ _ | .regRead _ => true

end Sys2Proof
end

