-- ==== Sys2Proof/Decode.lean ====
section
/-! DEFINITION. The decoder from a bus access to an instruction, an undefined opcode or a bus error, and the
encoder (spec/20_memory.md R81 to R85, spec/30_encoding.md R110 to R115, spec/60_exceptions.md R321, R322). -/

namespace Sys2Proof

/-- The five cases of a bus error, in the order in which R321 checks them. -/
inductive BusErrorCase where
  /-- Case 1: a register-region access that is not 32 bits wide, or not at a multiple of 4. -/
  | registerShape
  /-- Case 2: a buffer access that is not naturally aligned. -/
  | misalignedBuffer
  /-- Case 3: an access to a reserved offset. -/
  | reservedOffset
  /-- Case 4: a write to a read-only register. -/
  | readOnlyRegister
  /-- Case 5: a write to `TX` or `FRP`. -/
  | readOnlyBuffer
  deriving DecidableEq, Repr

/-- What the engine makes of a bus access. -/
inductive Decoded where
  | instr (i : Instr)
  /-- A `CMD` write whose `OP` is not in the opcode map (R112, R322). -/
  | badOp (op : Byte)
  /-- An access the engine refuses on the bus (R321). -/
  | busError (c : BusErrorCase)
  deriving DecidableEq, Repr

/-- The offset of a register (R290). -/
def Reg.offset : Reg → Half
  | .ctrl => 0x000#16 | .status => 0x004#16 | .irqEn => 0x008#16 | .cmd => 0x00C#16
  | .arg0 => 0x010#16 | .arg1 => 0x014#16 | .arg2 => 0x018#16 | .arg3 => 0x01C#16
  | .result => 0x020#16 | .reslen => 0x024#16
  | .crcAcc => 0x028#16 | .crcDin => 0x02C#16
  | .addAcc => 0x030#16 | .addDin => 0x034#16 | .addHex => 0x038#16
  | .rxcount => 0x03C#16 | .rxpush => 0x040#16
  | .frKind => 0x044#16 | .frAddr => 0x048#16 | .frFunc => 0x04C#16
  | .frStart => 0x050#16 | .frLen => 0x054#16 | .frCksum => 0x058#16
  | .cntOk => 0x05C#16 | .cntCkerr => 0x060#16 | .cntTrunc => 0x064#16
  | .cntMalf => 0x068#16 | .cntRxovf => 0x06C#16 | .cntOvr => 0x070#16

/-- The 29 registers in the order of their offsets. -/
def Reg.all : List Reg :=
  [.ctrl, .status, .irqEn, .cmd, .arg0, .arg1, .arg2, .arg3,
   .result, .reslen, .crcAcc, .crcDin, .addAcc, .addDin, .addHex, .rxcount, .rxpush,
   .frKind, .frAddr, .frFunc, .frStart, .frLen, .frCksum,
   .cntOk, .cntCkerr, .cntTrunc, .cntMalf, .cntRxovf, .cntOvr]

/-- The register at an offset; none at a reserved offset (R81). -/
def regAt (o : Half) : Option Reg := Reg.all.find? (fun r => r.offset == o)

/-- The opcode map of R111. -/
def opcodeMap : List (Byte × Instr) :=
  [(0x00#8, .nop), (0x01#8, .crcInit), (0x02#8, .crcBuf), (0x03#8, .addInit), (0x04#8, .addBuf),
   (0x10#8, .encAscii), (0x11#8, .encRtuRd), (0x12#8, .encRtuWr),
   (0x20#8, .decAscii), (0x21#8, .decRtu), (0x22#8, .decAsciiLen),
   (0x30#8, .syncReset), (0x31#8, .frameAck), (0x32#8, .cntClear)]

/-- The command an opcode names (R111), or `BAD_OP` (R112). -/
def decodeCommand (op : Byte) : Decoded :=
  match opcodeMap.find? (fun row => row.1 == op) with
  | some row => .instr row.2
  | none => .badOp op

/-- An aligned 32-bit write of `v` to a register (R84, R115). A `CMD` write takes its opcode from bits 7:0 and
ignores bits 31:8 (R110). -/
def decodeRegWrite (r : Reg) (v : Word) : Decoded :=
  match r with
  | .ctrl => .instr (.ctrlWrite (v.extractLsb' 0 3))
  | .status => .instr (.statusW1c (v.extractLsb' 1 6))
  | .irqEn => .instr (.irqenWrite (v.extractLsb' 0 7))
  | .cmd => decodeCommand (v.extractLsb' 0 8)
  | .arg0 => .instr (.argWrite .arg0 v)
  | .arg1 => .instr (.argWrite .arg1 v)
  | .arg2 => .instr (.argWrite .arg2 v)
  | .arg3 => .instr (.argWrite .arg3 v)
  | .crcDin => .instr (.crcByte (v.extractLsb' 0 8))
  | .addDin => .instr (.addByte (v.extractLsb' 0 8))
  | .rxpush => .instr (.syncPush (v.extractLsb' 0 8))
  | .result | .reslen | .crcAcc | .addAcc | .addHex | .rxcount => .busError .readOnlyRegister
  | .frKind | .frAddr | .frFunc | .frStart | .frLen | .frCksum => .busError .readOnlyRegister
  | .cntOk | .cntCkerr | .cntTrunc | .cntMalf | .cntRxovf | .cntOvr => .busError .readOnlyRegister

/-- An access to an offset below 0x0100 (R82, R84, R321 cases 1, 3 and 4). -/
def decodeRegister (a : BusAccess) : Decoded :=
  if a.width = .w32 ∧ a.offset.toNat % 4 = 0 then
    match regAt a.offset with
    | none => .busError .reservedOffset
    | some r =>
      match a.dir with
      | .read => .instr (.regRead r)
      | .write => decodeRegWrite r a.data
  else .busError .registerShape

/-- The low `w` bytes of a data word. -/
def Width.truncate (w : Width) (v : Word) : Word :=
  match w with
  | .w8 => (v.extractLsb' 0 8).setWidth 32
  | .w16 => (v.extractLsb' 0 16).setWidth 32
  | .w32 => v

/-- The buffer that offset bits 15:14 select; none below 0x4000 (R81). -/
def bufferAt (o : Half) : Option Buffer :=
  match (o.extractLsb' 14 2).toNat with
  | 1 => some .src
  | 2 => some .tx
  | 3 => some .frp
  | _ => none

/-- An aligned access to a buffer (R84, R321 case 5). -/
def decodeBufferAccess (b : Buffer) (a : BusAccess) : Decoded :=
  match a.dir, b with
  | .read, b => .instr (.bufRead b (a.offset.extractLsb' 0 14) a.width)
  | .write, .src => .instr (.srcWrite (a.offset.extractLsb' 0 14) a.width (a.width.truncate a.data))
  | .write, .tx => .busError .readOnlyBuffer
  | .write, .frp => .busError .readOnlyBuffer

/-- The decoder, total on every bus access: R321's cases are checked in their order, then R322's. -/
def decode (a : BusAccess) : Decoded :=
  if a.offset.toNat < 0x100 then decodeRegister a
  else
    match bufferAt a.offset with
    | none => .busError .reservedOffset
    | some b =>
      if a.width.aligned a.offset.toNat then decodeBufferAccess b a
      else .busError .misalignedBuffer

/-! The encoder. -/

/-- The command word of an opcode, with the ignored bits 31:8 zero (R110). -/
def commandWrite (op : Byte) : BusAccess := ⟨.write, .w32, Reg.cmd.offset, op.setWidth 32⟩

/-- A 32-bit write of `v` to register `r` (R125). -/
def registerWrite (r : Reg) (v : Word) : BusAccess := ⟨.write, .w32, r.offset, v⟩

/-- The register that `ARGn` is (R294). -/
def ArgReg.reg : ArgReg → Reg
  | .arg0 => .arg0
  | .arg1 => .arg1
  | .arg2 => .arg2
  | .arg3 => .arg3

/-- Offset bits 15:14 of a buffer's window (R81). -/
def Buffer.select : Buffer → BitVec 2
  | .src => 1#2
  | .tx => 2#2
  | .frp => 3#2

/-- The offset of byte `i` of a buffer (R81). -/
def Buffer.offset (b : Buffer) (i : BitVec 14) : Half := b.select ++ i

/-- The bus access that carries an instruction, with every ignored bit zero (R111, R115). -/
def encode : Instr → BusAccess
  | .nop => commandWrite 0x00#8
  | .crcInit => commandWrite 0x01#8
  | .crcBuf => commandWrite 0x02#8
  | .addInit => commandWrite 0x03#8
  | .addBuf => commandWrite 0x04#8
  | .encAscii => commandWrite 0x10#8
  | .encRtuRd => commandWrite 0x11#8
  | .encRtuWr => commandWrite 0x12#8
  | .decAscii => commandWrite 0x20#8
  | .decRtu => commandWrite 0x21#8
  | .decAsciiLen => commandWrite 0x22#8
  | .syncReset => commandWrite 0x30#8
  | .frameAck => commandWrite 0x31#8
  | .cntClear => commandWrite 0x32#8
  | .crcByte b => registerWrite .crcDin (b.setWidth 32)
  | .addByte b => registerWrite .addDin (b.setWidth 32)
  | .syncPush b => registerWrite .rxpush (b.setWidth 32)
  | .ctrlWrite v => registerWrite .ctrl (v.setWidth 32)
  | .statusW1c clear => registerWrite .status ((clear ++ 0#1 : BitVec 7).setWidth 32)
  | .irqenWrite en => registerWrite .irqEn (en.setWidth 32)
  | .argWrite n v => registerWrite n.reg v
  | .regRead r => ⟨.read, .w32, r.offset, 0#32⟩
  | .bufRead b i w => ⟨.read, w, b.offset i, 0#32⟩
  | .srcWrite i w v => ⟨.write, w, Buffer.src.offset i, v⟩

/-! The opcode table's words. -/

/-- The registers whose write has a row of its own in the opcode table (R115); a `CMD` write has the command rows. -/
def Reg.hasWriteRow : Reg → Bool
  | .ctrl | .status | .irqEn | .arg0 | .arg1 | .arg2 | .arg3 | .crcDin | .addDin | .rxpush => true
  | .cmd | .result | .reslen | .crcAcc | .addAcc | .addHex | .rxcount => false
  | .frKind | .frAddr | .frFunc | .frStart | .frLen | .frCksum => false
  | .cntOk | .cntCkerr | .cntTrunc | .cntMalf | .cntRxovf | .cntOvr => false

/-- The bus access that a word of spec/opcode_table.json names. A command row gives the eight bits of `OP`; the
other rows give the 16 bits of the offset and neither the direction nor the width of the access. Where the rows
of a read and of a write share an offset, the write is taken (log entry 4): the registers with a write row and the
`SRC` window are written, everything else is read. A register access is 32 bits wide, a buffer access 8 bits; the
write data is 0. -/
def tableAccess (nbits w : Nat) : BusAccess :=
  if nbits ≤ 8 then ⟨.write, .w32, Reg.cmd.offset, BitVec.ofNat 32 w⟩
  else
    let o := BitVec.ofNat 16 w
    match bufferAt o with
    | some .src => ⟨.write, .w8, o, 0#32⟩
    | some _ => ⟨.read, .w8, o, 0#32⟩
    | none =>
      match regAt o with
      | some r => ⟨if r.hasWriteRow then .write else .read, .w32, o, 0#32⟩
      | none => ⟨.read, .w32, o, 0#32⟩

/-- The instruction that the decoder reads from a word of spec/opcode_table.json. -/
def decodeTableWord (nbits w : Nat) : Option Instr :=
  match decode (tableAccess nbits w) with
  | .instr i => some i
  | .badOp _ => none
  | .busError _ => none

end Sys2Proof
end

