-- ==== Sys2Proof/Config.lean ====
section
/-! DEFINITION. The build-time parameters of the engine (spec/00_scope.md R5) and the free values of the
model: a byte read that was never written (spec/20_memory.md R94), and `RXCOUNT` of a length past 32 bits. -/

namespace Sys2Proof

/-- Parameter `UNINIT_READ` (R5, R94): what a read of a buffer byte not written since reset yields. -/
inductive UninitRead where
  /-- The access or the command faults; the spec recommends this value. -/
  | fault
  /-- The read yields a byte about which nothing is known, a fresh one for each read. -/
  | draw
  deriving DecidableEq, Repr

/-- The four parameters of R5. They are fixed when the engine is built; no operation and no reset changes them. -/
structure Params where
  /-- `HDR`, the ASCII header marker. -/
  hdr : Byte
  /-- `RXBUF_CAP`, the capacity in bytes of the synchronizer buffer. -/
  rxbufCap : Nat
  /-- `UNINIT_READ`. -/
  uninitRead : UninitRead
  /-- `BASE`, the host physical address of engine offset 0. -/
  base : Nat
  deriving DecidableEq, Repr

/-- The legal parameter values of R5. -/
abbrev Params.Legal (p : Params) : Prop :=
  p.hdr ≠ 0x0D#8 ∧ p.hdr ≠ 0x0A#8 ∧ 260 ≤ p.rxbufCap ∧ p.base % 0x10000 = 0

/-- The values R5 takes as defaults. `BASE` has no default in the spec; 0 is a DESIGN CHOICE (log entry 3). -/
def Config.defaultParams : Params :=
  { hdr := 0x3A#8, rxbufCap := 10016, uninitRead := .fault, base := 0 }

/-- The free byte of the n-th read of an unwritten buffer byte under `UNINIT_READ = draw` (R94). It has no body:
nothing in the model knows a value of it. -/
opaque Config.freeByte : Nat → Byte

/-- What `RXCOUNT` reads as when `RXB` holds `n` bytes and `n` needs more than 32 bits, which the spec does not say
(R5 puts no upper limit on `RXBUF_CAP`; log entry 8). It has no body: nothing in the model knows a value of it. -/
opaque Config.longRxcount : Nat → Word

end Sys2Proof
end

