-- ==== Sys2Proof/Machine/State.lean ====
section
/-! DEFINITION. The state of the engine, and the reasons a step can stop (spec/10_state.md, spec/70_reset_and_hazards.md
R350). -/

namespace Sys2Proof.Machine

/-- Why a step faults. -/
inductive Fault where
  /-- Raised by `BUF_READ` and by the commands that read `SRC`, when `UNINIT_READ = fault` and the byte at this offset
  of the window has not been written since reset (R94, R328). Safe: the hardware returns some byte. -/
  | unwrittenByte (offset : Nat)
  deriving DecidableEq, Repr

/-- Why a step is refused. -/
inductive Refusal where
  /-- Raised by `exec`'s arm of an instruction that has no meaning yet; no arm is one. Safe: the hardware goes on. -/
  | notModelled (mnemonic : String)
  deriving DecidableEq, Repr

/-- The result codes of R38. -/
inductive ResultCode where
  | ok | needMore | cksumMismatch | truncated | malformed | overrun | badArg | badOp
  deriving DecidableEq, Repr

/-- The kinds of a decoded frame (R47). -/
inductive FrameKind where
  | ascii | rtuRead | rtuWrite
  deriving DecidableEq, Repr

/-- The kinds of a decode failure (R14). -/
inductive InvalidKind where
  | checksumMismatch | truncated | malformed
  deriving DecidableEq, Repr

/-- A frame record (R14, R256). `data` is none for an RTU write response, which has no data bytes (R224). -/
structure FrameRec where
  kind  : FrameKind
  addr  : Half
  func  : Half
  start : Word
  len   : Word
  ck    : Half
  data  : Option (List Byte)
  deriving DecidableEq, Repr

/-- The result of decoding one delimited frame: `Frame(rec)` or `Invalid(kind)` (R183, R224). R14's third outcome,
`NeedMoreData`, belongs to the functions that search a buffer; it is `none` there (R184, R185). -/
inductive DecodeResult where
  | frame (r : FrameRec)
  | invalid (k : InvalidKind)
  deriving DecidableEq, Repr

/-- What `RTUNeed` answers (R227). -/
inductive RtuLength where
  /-- Too few bytes to tell. -/
  | unknown
  /-- No RTU response starts so. -/
  | noFrame
  /-- The whole frame has `k` bytes. -/
  | total (k : Nat)
  deriving DecidableEq, Repr

/-- What the engine returns for one access (R9, R354). -/
inductive Response where
  /-- A write that the bus accepted. -/
  | ok
  /-- The data of a read, zero-extended. -/
  | data (v : Word)
  /-- A bus error, SLVERR (R321). -/
  | slverr
  deriving DecidableEq, Repr

/-- A bus access as the host issues it, at a host physical address (R80). -/
structure HostAccess where
  dir   : Dir
  width : Width
  addr  : Nat
  data  : Word
  deriving DecidableEq, Repr

/-- What the two agents of R8 can do to the engine (R355): one host access, or reset. -/
inductive HostAction where
  | access (a : HostAccess)
  | reset
  deriving DecidableEq, Repr

/-- The contents of the three buffers: the bytes written since reset, by their offset in the window (R54, R81). An
offset that is not listed is unwritten (R94). -/
abbrev Memory := List Host.Cell

/-- The state. The fields from `ctrl` to `mem` are the architectural state of R30. The others are the model's own:
the build-time parameters (log entry 1), the accesses to come and the responses given (log entry 2), and
the number of free bytes drawn (log entry 5). -/
structure State where
  /-- The parameters of R5; no step changes them. -/
  cfg : Params
  /-- `CTRL[2:0]` (R33). -/
  ctrl : BitVec 3
  /-- `STATUS[6:0]` (R34). -/
  status : BitVec 7
  /-- `IRQ_EN[6:0]` (R35). -/
  irqEn : BitVec 7
  /-- `ARG0` (R37). -/
  arg0 : Word
  /-- `ARG1` (R37). -/
  arg1 : Word
  /-- `ARG2` (R37). -/
  arg2 : Word
  /-- `ARG3` (R37). -/
  arg3 : Word
  /-- `RESULT[2:0]` (R38). -/
  result : BitVec 3
  /-- `RESLEN` (R39). -/
  reslen : Word
  /-- `CRC_ACC[15:0]` (R40). -/
  crcAcc : Half
  /-- `ADD_ACC[7:0]` (R42). -/
  addAcc : Byte
  /-- `RXB`, the synchronizer buffer, oldest byte first (R55). -/
  rxb : List Byte
  /-- `FR_KIND[1:0]` (R47). -/
  frKind : BitVec 2
  /-- `FR_ADDR[15:0]` (R48). -/
  frAddr : Half
  /-- `FR_FUNC[15:0]` (R49). -/
  frFunc : Half
  /-- `FR_START` (R50). -/
  frStart : Word
  /-- `FR_LEN` (R51). -/
  frLen : Word
  /-- `FR_CKSUM[15:0]` (R52). -/
  frCksum : Half
  /-- `CNT_OK` (R53). -/
  cntOk : Word
  /-- `CNT_CKERR` (R53). -/
  cntCkerr : Word
  /-- `CNT_TRUNC` (R53). -/
  cntTrunc : Word
  /-- `CNT_MALF` (R53). -/
  cntMalf : Word
  /-- `CNT_RXOVF` (R53). -/
  cntRxovf : Word
  /-- `CNT_OVR` (R53). -/
  cntOvr : Word
  /-- `SRC`, `TX` and `FRP` (R54). -/
  mem : Memory
  /-- The host accesses and resets to come, the next one first (R90, R354). -/
  pending : List HostAction
  /-- The responses of the accesses made, oldest first (R354). -/
  responses : List Response
  /-- How many free bytes have been drawn under `UNINIT_READ = draw` (R94). -/
  draws : Nat
  deriving DecidableEq, Repr

/-- The engine right after reset (R350, R351), at the default parameters, with nothing pending and no response
given. -/
def State.reset : State :=
  { cfg := Config.defaultParams,
    ctrl := 0#3, status := 0#7, irqEn := 0#7,
    arg0 := 0#32, arg1 := 0#32, arg2 := 0#32, arg3 := 0#32,
    result := 0#3, reslen := 0#32,
    crcAcc := 0xFFFF#16, addAcc := 0x00#8,
    rxb := [],
    frKind := 0#2, frAddr := 0#16, frFunc := 0#16, frStart := 0#32, frLen := 0#32, frCksum := 0#16,
    cntOk := 0#32, cntCkerr := 0#32, cntTrunc := 0#32, cntMalf := 0#32, cntRxovf := 0#32, cntOvr := 0#32,
    mem := [],
    pending := [], responses := [], draws := 0 }

end Sys2Proof.Machine
end

