-- ==== Sys2Proof/Machine/Operands.lean ====
section
/-! DEFINITION. Byte strings, characters and numerals (spec/00_scope.md R11, R13), the packing of characters in
registers (spec/30_encoding.md R114) and the operand fields of the commands (R113). -/

namespace Sys2Proof.Machine

/-! Byte strings (R11). -/

/-- Byte `i` of a byte string. The rules read only indices below its length. -/
def byteAt (s : List Byte) (i : Nat) : Byte := s.getD i 0#8

/-- The sub-string of indices `a ≤ i < b`, empty when `a ≥ b`. -/
def slice (s : List Byte) (a b : Nat) : List Byte := (s.drop a).take (b - a)

/-! Characters and numerals (R13). -/

/-- `'0'..'9'`. -/
def isDec (c : Byte) : Bool := decide (0x30#8 ≤ c) && decide (c ≤ 0x39#8)

/-- The value of a decimal digit. -/
def decVal (c : Byte) : Nat := (c - 0x30#8).toNat

/-- `'0'..'9'`, `'A'..'F'`, `'a'..'f'`. -/
def isHex (c : Byte) : Bool :=
  isDec c || (decide (0x41#8 ≤ c) && decide (c ≤ 0x46#8)) || (decide (0x61#8 ≤ c) && decide (c ≤ 0x66#8))

/-- The value of a hexadecimal digit; the rules use it only where `isHex` holds. -/
def hexVal (c : Byte) : Byte :=
  if isDec c then c - 0x30#8
  else if c ≤ 0x46#8 then c - 0x41#8 + 10#8
  else c - 0x61#8 + 10#8

/-- The uppercase hexadecimal digit of a nibble: `"0123456789ABCDEF"[d]`. -/
def hexU (d : BitVec 4) : Byte :=
  if d.toNat < 10 then 0x30#8 + d.setWidth 8 else 0x41#8 + (d.setWidth 8 - 10#8)

/-- The decimal digit of a number below 10. -/
def decDigit (n : Nat) : Byte := BitVec.ofNat 8 (0x30 + n)

/-- The four decimal digits of `L`, most significant first. -/
def dec4 (L : Nat) : List Byte :=
  [decDigit (L / 1000 % 10), decDigit (L / 100 % 10), decDigit (L / 10 % 10), decDigit (L % 10)]

/-- The value of four decimal digits. -/
def dec4Val (c0 c1 c2 c3 : Byte) : Nat := 1000 * decVal c0 + 100 * decVal c1 + 10 * decVal c2 + decVal c3

/-- The two uppercase hexadecimal digits of a byte, high nibble first. -/
def hex2 (x : Byte) : List Byte := [hexU (x.extractLsb' 4 4), hexU (x.extractLsb' 0 4)]

/-- Two bytes, high byte first. -/
def be16 (v : Half) : List Byte := [v.extractLsb' 8 8, v.extractLsb' 0 8]

/-- Two bytes, low byte first. -/
def le16 (v : Half) : List Byte := [v.extractLsb' 0 8, v.extractLsb' 8 8]

/-- The number whose low byte is `b0` and high byte `b1`: `b0 | b1 << 8` (R183, R224). -/
def pack2 (b0 b1 : Byte) : Half := b1 ++ b0

/-- Four bytes packed as R114 packs characters: byte `k` at bits `8k+7:8k`. -/
def pack4 (b0 b1 b2 b3 : Byte) : Word := b3 ++ (b2 ++ (b1 ++ b0))

/-- Byte `k` of a word, bits `8k+7:8k` (R86, R114). -/
def wordByte (v : Word) (k : Nat) : Byte := v.extractLsb' (8 * k) 8

/-- The value of a little-endian byte string (R86). -/
def leValue : List Byte → Nat
  | [] => 0
  | b :: bs => b.toNat + 256 * leValue bs

/-- The data bytes of a write of a width, lowest offset first (R86). -/
def dataBytes (w : Width) (v : Word) : List Byte :=
  match w with
  | .w8 => [wordByte v 0]
  | .w16 => [wordByte v 0, wordByte v 1]
  | .w32 => [wordByte v 0, wordByte v 1, wordByte v 2, wordByte v 3]

/-! Operand fields of the commands (R113). -/

/-- `off`: `ARG3`, unsigned. -/
def State.opOff (s : State) : Nat := s.arg3.toNat

/-- `len`, and `L` of `ENC_ASCII`: `ARG2`, unsigned. -/
def State.opLen (s : State) : Nat := s.arg2.toNat

/-- ASCII address characters `a0, a1`. -/
def State.opAsciiAddr (s : State) : List Byte := [wordByte s.arg0 0, wordByte s.arg0 1]

/-- ASCII function characters `f0, f1`. -/
def State.opAsciiFunc (s : State) : List Byte := [wordByte s.arg0 2, wordByte s.arg0 3]

/-- ASCII start-address characters `s0..s3`. -/
def State.opAsciiStart (s : State) : List Byte :=
  [wordByte s.arg1 0, wordByte s.arg1 1, wordByte s.arg1 2, wordByte s.arg1 3]

/-- RTU `addr`: `ARG0[7:0]`. -/
def State.opRtuAddr (s : State) : Byte := s.arg0.extractLsb' 0 8

/-- RTU `start`: `ARG1[15:0]`. -/
def State.opRtuStart (s : State) : Half := s.arg1.extractLsb' 0 16

/-- RTU `cnt`: `ARG2[15:0]`. -/
def State.opRtuCount (s : State) : Half := s.arg2.extractLsb' 0 16

end Sys2Proof.Machine
end

