-- ==== Sys2Proof/Machine/Flags.lean ====
section
/-! DEFINITION. The fields of `CTRL`, the bits of `STATUS`, the result and frame kind codes, and the interrupt output
(spec/10_state.md R33, R34, R38, R47, R57). -/

namespace Sys2Proof.Machine

/-! `CTRL` (R33). -/

/-- `MODE`: true for RTU framing. -/
def State.rtuMode (s : State) : Bool := s.ctrl.getLsbD 0

/-- `SYNC_EN`. -/
def State.syncEn (s : State) : Bool := s.ctrl.getLsbD 1

/-- `SYNC_LEN`: true for declared-length framing. -/
def State.syncLen (s : State) : Bool := s.ctrl.getLsbD 2

/-! `STATUS` (R34). Each mask has the one bit of its name. -/

/-- Bit 0, `FRAME_VALID`. -/
def Status.frameValid : BitVec 7 := 0x01#7

/-- Bit 1, `OVR`. -/
def Status.ovr : BitVec 7 := 0x02#7

/-- Bit 2, `CKERR`. -/
def Status.ckerr : BitVec 7 := 0x04#7

/-- Bit 3, `TRUNC`. -/
def Status.trunc : BitVec 7 := 0x08#7

/-- Bit 4, `MALF`. -/
def Status.malf : BitVec 7 := 0x10#7

/-- Bit 5, `RXOVF`. -/
def Status.rxovf : BitVec 7 := 0x20#7

/-- Bit 6, `CMDERR`. -/
def Status.cmderr : BitVec 7 := 0x40#7

/-- `STATUS.FRAME_VALID`. -/
def State.frameValid (s : State) : Bool := s.status.getLsbD 0

/-- Set the bits of a mask in `STATUS`. -/
def State.setStatus (s : State) (mask : BitVec 7) : State := { s with status := s.status ||| mask }

/-- Clear the bits of a mask in `STATUS`. -/
def State.clearStatus (s : State) (mask : BitVec 7) : State := { s with status := s.status &&& ~~~mask }

/-- The level of the interrupt output (R57, R331). -/
def State.irq (s : State) : Bool := s.status &&& s.irqEn != 0#7

/-- The code of a result in `RESULT[2:0]` (R38). -/
def ResultCode.code : ResultCode → BitVec 3
  | .ok => 0#3
  | .needMore => 1#3
  | .cksumMismatch => 2#3
  | .truncated => 3#3
  | .malformed => 4#3
  | .overrun => 5#3
  | .badArg => 6#3
  | .badOp => 7#3

/-- The code of a frame kind in `FR_KIND[1:0]` (R47). -/
def FrameKind.code : FrameKind → BitVec 2
  | .ascii => 1#2
  | .rtuRead => 2#2
  | .rtuWrite => 3#2

end Sys2Proof.Machine
end

