-- ==== Sys2Proof/Machine/Ops.lean ====
section
/-! DEFINITION. The operations that the meanings share: the buffers (spec/20_memory.md), the register file
(spec/44_control.md R290), completion and failure of a command (R300, spec/60_exceptions.md R322), delivery
(spec/43_synchronizer.md R255) and reset (spec/70_reset_and_hazards.md R350). The engine has no trap entry and no trap
return (R332): `fail` and `deliver` are what it does with an abnormal outcome. -/

namespace Sys2Proof.Machine

/-! The buffers. -/

/-- The first offset past the window (R81). -/
def windowEnd : Nat := 0x10000

/-- The first offset of the buffers (R81). -/
def buffersStart : Nat := 0x4000

/-- The size of each buffer (R6, R54). -/
def bufferSize : Nat := 16384

/-- The byte at an offset, if it has been written since reset (R94). -/
def Memory.read : Memory → Nat → Option Byte
  | [], _ => none
  | c :: m, a => if c.1 = a then some c.2 else Memory.read m a

/-- Write one byte. The list stays in rising order of its offsets. -/
def Memory.write : Memory → Nat → Byte → Memory
  | [], a, b => [(a, b)]
  | c :: m, a, b =>
    if a < c.1 then (a, b) :: c :: m
    else if a = c.1 then (a, b) :: m
    else c :: Memory.write m a b

/-- Write the bytes of a string at consecutive offsets, lowest first. -/
def Memory.writeBytes : Memory → Nat → List Byte → Memory
  | m, _, [] => m
  | m, a, b :: bs => Memory.writeBytes (Memory.write m a b) (a + 1) bs

/-- The canonical form: offsets strictly rising, each inside a buffer. An unlisted offset is unwritten, so no entry
equals what an unlisted offset reads as. -/
abbrev Memory.wf (m : Memory) : Prop :=
  m.Pairwise (fun c d => c.1 < d.1) ∧ ∀ c ∈ m, buffersStart ≤ c.1 ∧ c.1 < windowEnd

/-- The offset of byte 0 of a buffer (R81). -/
def bufferBase : Buffer → Nat
  | .src => 0x4000
  | .tx => 0x8000
  | .frp => 0xC000

/-- `BufRead` of the byte at an offset: the byte written there, or what `UNINIT_READ` says (R12, R94). -/
def State.readByte (s : State) (a : Nat) : Except Fault (Byte × State) :=
  match s.mem.read a with
  | some b => .ok (b, s)
  | none =>
    match s.cfg.uninitRead with
    | .fault => .error (.unwrittenByte a)
    | .draw => .ok (Config.freeByte s.draws, { s with draws := s.draws + 1 })

/-- The `n` bytes from an offset on, lowest first. The state it answers differs only in how many free bytes have
been drawn. -/
def State.readBytes (s : State) (a : Nat) : Nat → Except Fault (List Byte × State)
  | 0 => .ok ([], s)
  | n + 1 =>
    match s.readByte a with
    | .error f => .error f
    | .ok (b, s1) =>
      match State.readBytes s1 (a + 1) n with
      | .error f => .error f
      | .ok (bs, s2) => .ok (b :: bs, s2)

/-- `BufSlice(SRC, off, n)` (R12). -/
def State.readSrc (s : State) (off n : Nat) : Except Fault (List Byte × State) :=
  s.readBytes (bufferBase .src + off) n

/-- `BufWrite` of a string at index `i` of a buffer (R12). -/
def State.writeBuf (s : State) (b : Buffer) (i : Nat) (bs : List Byte) : State :=
  { s with mem := s.mem.writeBytes (bufferBase b + i) bs }

/-- The argument check of the commands with a buffer argument, without wrap-around (R93). -/
def inSrc (off n : Nat) : Bool := decide (off + n ≤ bufferSize)

/-! Registers. -/

/-- `ARG_WRITE`'s store (R294). -/
def State.setArg (s : State) (n : ArgReg) (v : Word) : State :=
  match n with
  | .arg0 => { s with arg0 := v }
  | .arg1 => { s with arg1 := v }
  | .arg2 => { s with arg2 := v }
  | .arg3 => { s with arg3 := v }

/-- `ADD_HEX`: the two uppercase hexadecimal characters of `ADD_ACC`, the first sent in bits 7:0 (R44). -/
def State.addHex (s : State) : Word :=
  (pack2 (hexU (s.addAcc.extractLsb' 4 4)) (hexU (s.addAcc.extractLsb' 0 4))).setWidth 32

/-- `RXCOUNT`: the length of `RXB` (R45). For a length that 32 bits do not hold the spec gives no value: it is free
(log entry 8). -/
def State.rxcount (s : State) : Word :=
  if s.rxb.length < 2 ^ 32 then BitVec.ofNat 32 s.rxb.length else Config.longRxcount s.rxb.length

/-- What a read of a register returns (R290). -/
def State.readReg (s : State) : Reg → Word
  | .ctrl => s.ctrl.setWidth 32
  | .status => s.status.setWidth 32
  | .irqEn => s.irqEn.setWidth 32
  | .cmd | .crcDin | .addDin | .rxpush => 0#32
  | .arg0 => s.arg0
  | .arg1 => s.arg1
  | .arg2 => s.arg2
  | .arg3 => s.arg3
  | .result => s.result.setWidth 32
  | .reslen => s.reslen
  | .crcAcc => s.crcAcc.setWidth 32
  | .addAcc => s.addAcc.setWidth 32
  | .addHex => s.addHex
  | .rxcount => s.rxcount
  | .frKind => s.frKind.setWidth 32
  | .frAddr => s.frAddr.setWidth 32
  | .frFunc => s.frFunc.setWidth 32
  | .frStart => s.frStart
  | .frLen => s.frLen
  | .frCksum => s.frCksum.setWidth 32
  | .cntOk => s.cntOk
  | .cntCkerr => s.cntCkerr
  | .cntTrunc => s.cntTrunc
  | .cntMalf => s.cntMalf
  | .cntRxovf => s.cntRxovf
  | .cntOvr => s.cntOvr

/-! Responses, completion and failure. -/

/-- Record the response of an access (R9, R354). -/
def State.respond (s : State) (r : Response) : State := { s with responses := s.responses ++ [r] }

/-- A command's end: `RESULT` and `RESLEN` get their final values, and the `CMD` write its OK response (R300). -/
def State.complete (s : State) (c : ResultCode) (len : Nat) : State :=
  { s with result := c.code, reslen := BitVec.ofNat 32 len }.respond .ok

/-- `fail(code)`: `RESULT` gets the code, `RESLEN` 0, and `STATUS.CMDERR` is set (R322). A failed command's `CMD`
write is not a bus error. -/
def State.fail (s : State) (c : ResultCode) : State := (s.setStatus Status.cmderr).complete c 0

/-! Delivery. -/

/-- Load the frame holding register with a record (R255, R256). -/
def State.loadFrame (s : State) (r : FrameRec) : State :=
  let t := { s with
    frKind := r.kind.code, frAddr := r.addr, frFunc := r.func,
    frStart := r.start, frLen := r.len, frCksum := r.ck }
  match r.data with
  | none => t
  | some bs => t.writeBuf .frp 0 bs

/-- `Deliver(res)`: the result code it returns and the state after it (R255). -/
def State.deliver (s : State) : DecodeResult → ResultCode × State
  | .frame r =>
    if s.frameValid then
      (.overrun, { s.setStatus Status.ovr with cntOvr := s.cntOvr + 1#32 })
    else
      (.ok, { (s.loadFrame r).setStatus Status.frameValid with cntOk := s.cntOk + 1#32 })
  | .invalid .checksumMismatch =>
    (.cksumMismatch, { s.setStatus Status.ckerr with cntCkerr := s.cntCkerr + 1#32 })
  | .invalid .truncated =>
    (.truncated, { s.setStatus Status.trunc with cntTrunc := s.cntTrunc + 1#32 })
  | .invalid .malformed =>
    (.malformed, { s.setStatus Status.malf with cntMalf := s.cntMalf + 1#32 })

/-! Reset. -/

/-- `RESET` (R350): every architectural field gets its reset value. The parameters stay (R350), and so does what is
the model's own: the accesses to come, the responses given and the count of free bytes drawn. -/
def State.applyReset (s : State) : State :=
  { State.reset with
    cfg := s.cfg, pending := s.pending, responses := s.responses, draws := s.draws }

end Sys2Proof.Machine
end

