-- ==== Sys2Proof/Machine/Control.lean ====
section
/-! DEFINITION. The bus register operations, the buffer accesses and the control commands (spec/44_control.md R290 to
R294, R296 to R299), and the two accesses that carry no instruction: an undefined opcode (R322) and a bus error
(R321). -/

namespace Sys2Proof.Machine

/-- `REG_READ` (R290). -/
def execRegRead (r : Reg) (s : State) : Host.Outcome State Fault Refusal :=
  .next (s.respond (.data (s.readReg r)))

/-- `CTRL_WRITE` (R291): a change of framing discards the partial frame. -/
def execCtrlWrite (v : BitVec 3) (s : State) : Host.Outcome State Fault Refusal :=
  .next ({ s with ctrl := v, rxb := if v = s.ctrl then s.rxb else [] }.respond .ok)

/-- `STATUS_W1C` (R292): `clear` holds data bits 6:1; `FRAME_VALID` is not cleared by a write. -/
def execStatusW1c (clear : BitVec 6) (s : State) : Host.Outcome State Fault Refusal :=
  .next ((s.clearStatus (clear ++ 0#1)).respond .ok)

/-- `IRQEN_WRITE` (R293). -/
def execIrqenWrite (en : BitVec 7) (s : State) : Host.Outcome State Fault Refusal :=
  .next ({ s with irqEn := en }.respond .ok)

/-- `ARG_WRITE` (R294). -/
def execArgWrite (n : ArgReg) (v : Word) (s : State) : Host.Outcome State Fault Refusal :=
  .next ((s.setArg n v).respond .ok)

/-- `NOP` (R296). -/
def execNop (s : State) : Host.Outcome State Fault Refusal :=
  .next (s.complete .ok 0)

/-- `CNT_CLEAR` (R297). -/
def execCntClear (s : State) : Host.Outcome State Fault Refusal :=
  .next ({ s with
    cntOk := 0#32, cntCkerr := 0#32, cntTrunc := 0#32,
    cntMalf := 0#32, cntRxovf := 0#32, cntOvr := 0#32 }.complete .ok 0)

/-- `BUF_READ` (R298): the bytes little-endian (R86), zero-extended. -/
def execBufRead (b : Buffer) (i : BitVec 14) (w : Width) (s : State) : Host.Outcome State Fault Refusal :=
  match s.readBytes (bufferBase b + i.toNat) w.bytes with
  | .error f => .fault f
  | .ok (bs, t) => .next (t.respond (.data (BitVec.ofNat 32 (leValue bs))))

/-- `SRC_WRITE` (R299). -/
def execSrcWrite (i : BitVec 14) (w : Width) (v : Word) (s : State) : Host.Outcome State Fault Refusal :=
  .next ((s.writeBuf .src i.toNat (dataBytes w v)).respond .ok)

/-- A `CMD` write with an undefined opcode: `fail(BAD_OP)` (R322). -/
def execBadOp (s : State) : State := s.fail .badOp

/-- A refused bus access: the error response and no other effect (R321). -/
def execBusError (s : State) : State := s.respond .slverr

end Sys2Proof.Machine
end

