-- ==== Sys2Proof/Machine/Checksum.lean ====
section
/-! DEFINITION. The CRC unit and the additive unit: the functions of spec/40_checksum.md R150 to R152 and the meanings
of `CRC_INIT`, `CRC_BYTE`, `CRC_BUF`, `ADD_INIT`, `ADD_BYTE` and `ADD_BUF`. -/

namespace Sys2Proof.Machine

/-- The seed of the CRC (R6). -/
def crcSeed : Half := 0xFFFF#16

/-- The polynomial of the CRC in reflected form (R6). -/
def crcPoly : Half := 0xA001#16

/-- One of the eight iterations of R150: shift right, and XOR the polynomial in when the bit shifted out is 1. -/
def crcShift (acc : Half) : Half :=
  if acc.getLsbD 0 then (acc >>> 1) ^^^ crcPoly else acc >>> 1

/-- `n` iterations. -/
def crcShifts : Nat → Half → Half
  | 0, acc => acc
  | n + 1, acc => crcShifts n (crcShift acc)

/-- `CRC16Step(acc, b)` (R150): the byte enters the low eight bits, then eight iterations. -/
def crc16Step (acc : Half) (b : Byte) : Half := crcShifts 8 (acc ^^^ b.setWidth 16)

/-- `CRC16Modbus(s)` (R151). -/
def crc16Modbus (s : List Byte) : Half := s.foldl crc16Step crcSeed

/-- `Additive8(s)` (R152). -/
def additive8 (s : List Byte) : Byte := s.foldl (fun sum b => sum + b) 0#8

/-- `CRC_INIT` (R153). -/
def execCrcInit (s : State) : Host.Outcome State Fault Refusal :=
  .next ({ s with crcAcc := crcSeed }.complete .ok 0)

/-- `CRC_BYTE` (R154). -/
def execCrcByte (b : Byte) (s : State) : Host.Outcome State Fault Refusal :=
  .next ({ s with crcAcc := crc16Step s.crcAcc b }.respond .ok)

/-- `CRC_BUF` (R155): the seed is applied by the command. -/
def execCrcBuf (s : State) : Host.Outcome State Fault Refusal :=
  if inSrc s.opOff s.opLen then
    match s.readSrc s.opOff s.opLen with
    | .error f => .fault f
    | .ok (bs, t) => .next ({ t with crcAcc := crc16Modbus bs }.complete .ok s.opLen)
  else .next (s.fail .badArg)

/-- `ADD_INIT` (R157). -/
def execAddInit (s : State) : Host.Outcome State Fault Refusal :=
  .next ({ s with addAcc := 0x00#8 }.complete .ok 0)

/-- `ADD_BYTE` (R158). -/
def execAddByte (b : Byte) (s : State) : Host.Outcome State Fault Refusal :=
  .next ({ s with addAcc := s.addAcc + b }.respond .ok)

/-- `ADD_BUF` (R159). -/
def execAddBuf (s : State) : Host.Outcome State Fault Refusal :=
  if inSrc s.opOff s.opLen then
    match s.readSrc s.opOff s.opLen with
    | .error f => .fault f
    | .ok (bs, t) => .next ({ t with addAcc := additive8 bs }.complete .ok s.opLen)
  else .next (s.fail .badArg)

end Sys2Proof.Machine
end

