-- ==== Sys2Proof/Machine/Ascii.lean ====
section
/-! DEFINITION. The ASCII codec: the functions of spec/41_ascii_codec.md R180 and R183 to R185 and the meanings of
`ENC_ASCII`, `DEC_ASCII` and `DEC_ASCII_LEN`. The header marker is the parameter `HDR` (R5). -/

namespace Sys2Proof.Machine

/-- CR, the first byte of the tail marker (R6). -/
def cr : Byte := 0x0D#8

/-- LF, the second byte of the tail marker (R6). -/
def lf : Byte := 0x0A#8

/-- The largest payload length of an ASCII frame (R6, R117). -/
def asciiMaxLen : Nat := 9999

/-- The bytes of a frame between the header marker and the checksum (R116, R180). -/
def asciiInner (a f st p : List Byte) : List Byte := a ++ f ++ st ++ dec4 p.length ++ p

/-- `EncodeASCII(a, f, s, p)` (R180). -/
def encodeAscii (hdr : Byte) (a f st p : List Byte) : List Byte :=
  [hdr] ++ asciiInner a f st p ++ hex2 (additive8 (asciiInner a f st p)) ++ [cr, lf]

/-- The record of step 7 of R183. -/
def asciiRecord (body : List Byte) (L : Nat) (ck : Byte) : FrameRec :=
  { kind := .ascii,
    addr := pack2 (byteAt body 0) (byteAt body 1),
    func := pack2 (byteAt body 2) (byteAt body 3),
    start := pack4 (byteAt body 4) (byteAt body 5) (byteAt body 6) (byteAt body 7),
    len := BitVec.ofNat 32 L,
    ck := ck.setWidth 16,
    data := some (slice body 12 (12 + L)) }

/-- Four decimal digits from index `i` on (R183 step 5, R185, R253). -/
def isDec4 (s : List Byte) (i : Nat) : Bool :=
  isDec (byteAt s i) && isDec (byteAt s (i + 1)) && isDec (byteAt s (i + 2)) && isDec (byteAt s (i + 3))

/-- `dec4Val` of the four bytes from index `i` on. -/
def dec4At (s : List Byte) (i : Nat) : Nat :=
  dec4Val (byteAt s i) (byteAt s (i + 1)) (byteAt s (i + 2)) (byteAt s (i + 3))

/-- The checksum value of the last two bytes of a body (R183 step 3). -/
def bodyChecksum (body : List Byte) : Byte :=
  16#8 * hexVal (byteAt body (body.length - 2)) + hexVal (byteAt body (body.length - 1))

/-- `DecodeBody(body)` (R183); the checks run in this order. -/
def decodeBody (body : List Byte) : DecodeResult :=
  let m := body.length
  let ck := bodyChecksum body
  let L := dec4At body 8
  if m < 2 then .invalid .truncated
  else if !(isHex (byteAt body (m - 2)) && isHex (byteAt body (m - 1))) then .invalid .malformed
  else if additive8 (slice body 0 (m - 2)) ≠ ck then .invalid .checksumMismatch
  else if m - 2 < 12 then .invalid .truncated
  else if !(isDec4 body 8) then .invalid .malformed
  else if m - 14 < L then .invalid .truncated
  else if L < m - 14 then .invalid .malformed
  else .frame (asciiRecord body L ck)

/-- The least index of the header marker. -/
def findHeader (hdr : Byte) : List Byte → Option Nat
  | [] => none
  | b :: bs => if b = hdr then some 0 else (findHeader hdr bs).map (· + 1)

/-- The least index at which a CR LF pair starts. -/
def findTail : List Byte → Option Nat
  | [] => none
  | b :: bs => if b = cr ∧ bs.head? = some lf then some 0 else (findTail bs).map (· + 1)

/-- `DecodeBuffer(buf)` (R184): the result and the count of consumed bytes. `none` is `(NeedMoreData, 0)`. -/
def decodeBuffer (hdr : Byte) (buf : List Byte) : Option (DecodeResult × Nat) :=
  match findHeader hdr buf with
  | none => none
  | some h =>
    match findTail (buf.drop (h + 1)) with
    | none => none
    | some k => some (decodeBody (slice buf (h + 1) (h + 1 + k)), h + 1 + k + 2)

/-- `DecodeBufferLen(buf)` (R185): the result and the count of consumed bytes. `none` is `(NeedMoreData, 0)`. -/
def decodeBufferLen (hdr : Byte) (buf : List Byte) : Option (DecodeResult × Nat) :=
  match findHeader hdr buf with
  | none => none
  | some h =>
    let L := dec4At buf (h + 9)
    if buf.length - h < 13 then none
    else if !(isDec4 buf (h + 9)) then some (.invalid .malformed, h + 13)
    else if buf.length - h < L + 17 then none
    else if !(byteAt buf (h + L + 15) == cr && byteAt buf (h + L + 16) == lf) then
      some (.invalid .malformed, h + L + 17)
    else some (decodeBody (slice buf (h + 1) (h + L + 15)), h + L + 17)

/-- The end of a buffer decode command: `NEED_MORE` with `RESLEN` 0, or a delivery with `RESLEN` the count of
consumed bytes (R186, R187). -/
def finishDecode (res : Option (DecodeResult × Nat)) (s : State) : State :=
  match res with
  | none => s.complete .needMore 0
  | some (r, used) => (s.deliver r).2.complete (s.deliver r).1 used

/-- `ENC_ASCII` (R182). -/
def execEncAscii (s : State) : Host.Outcome State Fault Refusal :=
  if decide (s.opLen ≤ asciiMaxLen) && inSrc s.opOff s.opLen then
    match s.readSrc s.opOff s.opLen with
    | .error f => .fault f
    | .ok (p, t) =>
      .next ((t.writeBuf .tx 0 (encodeAscii s.cfg.hdr s.opAsciiAddr s.opAsciiFunc s.opAsciiStart p)).complete
        .ok (s.opLen + 17))
  else .next (s.fail .badArg)

/-- `DEC_ASCII` (R186). -/
def execDecAscii (s : State) : Host.Outcome State Fault Refusal :=
  if inSrc s.opOff s.opLen then
    match s.readSrc s.opOff s.opLen with
    | .error f => .fault f
    | .ok (buf, t) => .next (finishDecode (decodeBuffer s.cfg.hdr buf) t)
  else .next (s.fail .badArg)

/-- `DEC_ASCII_LEN` (R187). -/
def execDecAsciiLen (s : State) : Host.Outcome State Fault Refusal :=
  if inSrc s.opOff s.opLen then
    match s.readSrc s.opOff s.opLen with
    | .error f => .fault f
    | .ok (buf, t) => .next (finishDecode (decodeBufferLen s.cfg.hdr buf) t)
  else .next (s.fail .badArg)

end Sys2Proof.Machine
end

