-- ==== Sys2Proof/Machine/Rtu.lean ====
section
/-! DEFINITION. The RTU codec: the functions of spec/42_rtu_codec.md R220, R222, R224 and R227 and the meanings of
`ENC_RTU_RD`, `ENC_RTU_WR` and `DEC_RTU`. -/

namespace Sys2Proof.Machine

/-- The read function code (R6). -/
def funcRead : Byte := 0x03#8

/-- The write function code (R6). -/
def funcWrite : Byte := 0x10#8

/-- A string followed by its CRC, low byte first (R87, R151). -/
def withCrc (f : List Byte) : List Byte := f ++ le16 (crc16Modbus f)

/-- `EncodeRTURead(addr, start, cnt)` (R220). -/
def encodeRtuRead (addr : Byte) (start cnt : Half) : List Byte :=
  withCrc ([addr, funcRead] ++ be16 start ++ be16 cnt)

/-- `EncodeRTUWrite(addr, start, cnt, data)` (R222); the byte count is `2*cnt`. -/
def encodeRtuWrite (addr : Byte) (start cnt : Half) (data : List Byte) : List Byte :=
  withCrc ([addr, funcWrite] ++ be16 start ++ be16 cnt ++ [BitVec.ofNat 8 (2 * cnt.toNat)] ++ data)

/-- The CRC that a frame carries in its last two bytes (R224 step 2). -/
def receivedCrc (fr : List Byte) : Half := pack2 (byteAt fr (fr.length - 2)) (byteAt fr (fr.length - 1))

/-- The layout checks of a read response (R224 step 3, function 3). -/
def decodeRtuRead (fr : List Byte) : DecodeResult :=
  let n := fr.length
  let N := (byteAt fr 2).toNat
  if n < 5 then .invalid .truncated
  else if n < 5 + N then .invalid .truncated
  else if 5 + N < n then .invalid .malformed
  else .frame
    { kind := .rtuRead, addr := (byteAt fr 0).setWidth 16, func := funcRead.setWidth 16, start := 0#32,
      len := BitVec.ofNat 32 N, ck := receivedCrc fr, data := some (slice fr 3 (3 + N)) }

/-- The layout checks of a write response (R224 step 3, function 16). -/
def decodeRtuWrite (fr : List Byte) : DecodeResult :=
  let n := fr.length
  if n < 8 then .invalid .truncated
  else if 8 < n then .invalid .malformed
  else .frame
    { kind := .rtuWrite, addr := (byteAt fr 0).setWidth 16, func := funcWrite.setWidth 16,
      start := (pack2 (byteAt fr 3) (byteAt fr 2)).setWidth 32,
      len := (pack2 (byteAt fr 5) (byteAt fr 4)).setWidth 32,
      ck := receivedCrc fr, data := none }

/-- `DecodeRTU(fr)` (R224); the checks run in this order. -/
def decodeRtu (fr : List Byte) : DecodeResult :=
  let n := fr.length
  if n < 4 then .invalid .truncated
  else if crc16Modbus (slice fr 0 (n - 2)) ≠ receivedCrc fr then .invalid .checksumMismatch
  else if byteAt fr 1 = funcRead then decodeRtuRead fr
  else if byteAt fr 1 = funcWrite then decodeRtuWrite fr
  else .invalid .malformed

/-- `RTUNeed(b)` (R227). -/
def rtuNeed (b : List Byte) : RtuLength :=
  if b.length < 2 then .unknown
  else if byteAt b 1 = funcRead then
    if b.length < 3 then .unknown else .total (5 + (byteAt b 2).toNat)
  else if byteAt b 1 = funcWrite then .total 8
  else .noFrame

/-- The largest register count of a write request (R120, R223). -/
def rtuMaxWriteCount : Nat := 127

/-- `ENC_RTU_RD` (R221). -/
def execEncRtuRd (s : State) : Host.Outcome State Fault Refusal :=
  .next ((s.writeBuf .tx 0 (encodeRtuRead s.opRtuAddr s.opRtuStart s.opRtuCount)).complete .ok 8)

/-- `ENC_RTU_WR` (R223). -/
def execEncRtuWr (s : State) : Host.Outcome State Fault Refusal :=
  if decide (s.opRtuCount.toNat ≤ rtuMaxWriteCount) && inSrc s.opOff (2 * s.opRtuCount.toNat) then
    match s.readSrc s.opOff (2 * s.opRtuCount.toNat) with
    | .error f => .fault f
    | .ok (data, t) =>
      .next ((t.writeBuf .tx 0 (encodeRtuWrite s.opRtuAddr s.opRtuStart s.opRtuCount data)).complete
        .ok (9 + 2 * s.opRtuCount.toNat))
  else .next (s.fail .badArg)

/-- `DEC_RTU` (R225): `RESLEN` is the length of the input, whatever the result. -/
def execDecRtu (s : State) : Host.Outcome State Fault Refusal :=
  if inSrc s.opOff s.opLen then
    match s.readSrc s.opOff s.opLen with
    | .error f => .fault f
    | .ok (fr, t) => .next ((t.deliver (decodeRtu fr)).2.complete (t.deliver (decodeRtu fr)).1 s.opLen)
  else .next (s.fail .badArg)

end Sys2Proof.Machine
end

