-- ==== Sys2Proof/Machine/Synchronizer.lean ====
section
/-! DEFINITION. The synchronizer (spec/43_synchronizer.md R251 to R254, R259, R260): the three framing steps and the
meanings of `SYNC_PUSH`, `FRAME_ACK` and `SYNC_RESET`. -/

namespace Sys2Proof.Machine

/-- End the frame in `RXB`: empty it and deliver a result (R252 to R254). -/
def State.endFrame (s : State) (res : DecodeResult) : State := ({ s with rxb := [] }.deliver res).2

/-- The first byte of an ASCII frame: the header marker starts a frame, any other byte is dropped (R252, R253). -/
def asciiStart (b : Byte) (s : State) : State :=
  if b = s.cfg.hdr then { s with rxb := [b] } else s

/-- The last two bytes of a string are CR LF. -/
def endsInTail (rx : List Byte) : Bool :=
  byteAt rx (rx.length - 2) == cr && byteAt rx (rx.length - 1) == lf

/-- The body of the frame in a string that ends in its tail: `RXB[1 .. n-2)` (R252, R253). -/
def frameBody (rx : List Byte) : List Byte := slice rx 1 (rx.length - 2)

/-- `AsciiDelimStep(b)` (R252). -/
def asciiDelimStep (b : Byte) (s : State) : State :=
  if s.rxb = [] then asciiStart b s
  else
    let rx := s.rxb ++ [b]
    if decide (3 ≤ rx.length) && endsInTail rx then s.endFrame (decodeBody (frameBody rx))
    else { s with rxb := rx }

/-- `AsciiLenStep(b)` (R253). -/
def asciiLenStep (b : Byte) (s : State) : State :=
  if s.rxb = [] then asciiStart b s
  else
    let rx := s.rxb ++ [b]
    if rx.length < 13 then { s with rxb := rx }
    else if !(isDec4 rx 9) then s.endFrame (.invalid .malformed)
    else if rx.length < dec4At rx 9 + 17 then { s with rxb := rx }
    else if endsInTail rx then s.endFrame (decodeBody (frameBody rx))
    else s.endFrame (.invalid .malformed)

/-- `RtuStep(b)` (R254). -/
def rtuStep (b : Byte) (s : State) : State :=
  let rx := s.rxb ++ [b]
  match rtuNeed rx with
  | .unknown => { s with rxb := rx }
  | .noFrame => s.endFrame (.invalid .malformed)
  | .total k =>
    if rx.length = k then s.endFrame (decodeRtu rx) else { s with rxb := rx }

/-- The overflow of `RXB` (R251, R327). -/
def rxOverflow (s : State) : State :=
  { s.setStatus Status.rxovf with rxb := [], cntRxovf := s.cntRxovf + 1#32 }

/-- `SYNC_PUSH(b)` (R251), without the bus response. -/
def syncPush (b : Byte) (s : State) : State :=
  if s.syncEn then
    let t := if s.rxb.length = s.cfg.rxbufCap then rxOverflow s else s
    if s.rtuMode then rtuStep b t
    else if s.syncLen then asciiLenStep b t
    else asciiDelimStep b t
  else s

/-- `SYNC_PUSH` (R251). -/
def execSyncPush (b : Byte) (s : State) : Host.Outcome State Fault Refusal :=
  .next ((syncPush b s).respond .ok)

/-- `FRAME_ACK` (R259). -/
def execFrameAck (s : State) : Host.Outcome State Fault Refusal :=
  .next ((s.clearStatus Status.frameValid).complete .ok 0)

/-- `SYNC_RESET` (R260). -/
def execSyncReset (s : State) : Host.Outcome State Fault Refusal :=
  .next ({ s with rxb := [] }.complete .ok 0)

end Sys2Proof.Machine
end

