-- ==== Sys2Proof/Machine/Dispatch.lean ====
section
/-! DEFINITION. The meaning of each instruction. -/

namespace Sys2Proof.Machine

def exec (i : Instr) (s : State) : Host.Outcome State Fault Refusal :=
  match i with
  | .nop => Sys2Proof.Machine.execNop s
  | .crcInit => Sys2Proof.Machine.execCrcInit s
  | .crcBuf => Sys2Proof.Machine.execCrcBuf s
  | .addInit => Sys2Proof.Machine.execAddInit s
  | .addBuf => Sys2Proof.Machine.execAddBuf s
  | .encAscii => Sys2Proof.Machine.execEncAscii s
  | .encRtuRd => Sys2Proof.Machine.execEncRtuRd s
  | .encRtuWr => Sys2Proof.Machine.execEncRtuWr s
  | .decAscii => Sys2Proof.Machine.execDecAscii s
  | .decRtu => Sys2Proof.Machine.execDecRtu s
  | .decAsciiLen => Sys2Proof.Machine.execDecAsciiLen s
  | .syncReset => Sys2Proof.Machine.execSyncReset s
  | .frameAck => Sys2Proof.Machine.execFrameAck s
  | .cntClear => Sys2Proof.Machine.execCntClear s
  | .crcByte b => Sys2Proof.Machine.execCrcByte b s
  | .addByte b => Sys2Proof.Machine.execAddByte b s
  | .syncPush b => Sys2Proof.Machine.execSyncPush b s
  | .ctrlWrite v => Sys2Proof.Machine.execCtrlWrite v s
  | .statusW1c clear => Sys2Proof.Machine.execStatusW1c clear s
  | .irqenWrite en => Sys2Proof.Machine.execIrqenWrite en s
  | .argWrite n v => Sys2Proof.Machine.execArgWrite n v s
  | .regRead r => Sys2Proof.Machine.execRegRead r s
  | .bufRead b index w => Sys2Proof.Machine.execBufRead b index w s
  | .srcWrite index w v => Sys2Proof.Machine.execSrcWrite index w v s

end Sys2Proof.Machine
end

