-- ==== Sys2Proof/Machine/Access.lean ====
section
/-! DEFINITION. One host access: the address decode of spec/20_memory.md R80, the decoder, and what the access does
(spec/00_scope.md R9, spec/44_control.md R295, spec/60_exceptions.md R329). -/

namespace Sys2Proof.Machine

/-- The offset that a host address reaches, if it lies in the window at `BASE` (R80). -/
def engineOffset (base addr : Nat) : Option Half :=
  if base ≤ addr ∧ addr < base + 0x10000 then some (BitVec.ofNat 16 (addr - base)) else none

/-- The bus access that the engine sees of a host access. -/
def HostAccess.busAccess (h : HostAccess) (o : Half) : BusAccess := ⟨h.dir, h.width, o, h.data⟩

/-- One access to the engine's window: its whole effect and its response, in one step (R9, R89). -/
def runBusAccess (a : BusAccess) (s : State) : Host.Outcome State Fault Refusal :=
  match decode a with
  | .instr i => exec i s
  | .badOp _ => .next (execBadOp s)
  | .busError _ => .next (execBusError s)

/-- One host access. An access outside the window does not reach the engine (log entry 3). -/
def runHostAccess (h : HostAccess) (s : State) : Host.Outcome State Fault Refusal :=
  match engineOffset s.cfg.base h.addr with
  | none => .next s
  | some o => runBusAccess (h.busAccess o) s

/-- One host action (R355). -/
def runAction (a : HostAction) (s : State) : Host.Outcome State Fault Refusal :=
  match a with
  | .access h => runHostAccess h s
  | .reset => .next s.applyReset

/-- The host access that makes a bus access at this engine's `BASE` (R125). -/
def hostAccessOf (base : Nat) (a : BusAccess) : HostAccess := ⟨a.dir, a.width, base + a.offset.toNat, a.data⟩

end Sys2Proof.Machine
end

