-- ==== Sys2Proof/Machine/Step.lean ====
section
/-! DEFINITION. One step: the next host action of the run (spec/70_reset_and_hazards.md R354, R355). The engine fetches
no instructions (spec/10_state.md R32): what takes the place of the fetch is the list of host actions to come. -/

namespace Sys2Proof.Machine

/-- One step takes the next pending host action and performs it whole (R9). With nothing pending nothing changes:
the engine never does anything on its own (R355). -/
def step (s : State) : Host.Outcome State Fault Refusal :=
  match s.pending with
  | [] => .next s
  | a :: rest => runAction a { s with pending := rest }

/-- `s` with the bus access that a word of the opcode table names as the host's next action (log entry 4). -/
def State.withFetchWord (s : State) (nbits w : Nat) : State :=
  { s with pending := .access (hostAccessOf s.cfg.base (tableAccess nbits w)) :: s.pending }

end Sys2Proof.Machine
end

