-- ==== Sys2Proof/Safety.lean ====
section
/-! DEFINITION. The terms that claims about the engine use: which bytes an instruction reads, what a run may rely on,
the invariant of the machine, and the source's own description of the frame assembler (spec/43_synchronizer.md). -/

namespace Sys2Proof.Machine

/-! Bytes of the buffers. -/

/-- Every one of the `n` bytes from offset `a` on has been written since reset (R94). -/
abbrev Written (s : State) (a n : Nat) : Prop := ∀ k, k < n → (s.mem.read (a + k)).isSome = true

/-- A read of the `n` bytes from offset `a` on raises no fault (R94, R328). -/
abbrev Readable (s : State) (a n : Nat) : Prop := s.cfg.uninitRead = .draw ∨ Written s a n

/-- A value that a read of the `n` bytes from offset `a` on can have: the written bytes are what was written, and
nothing is said of an unwritten byte. -/
def SliceOf (s : State) (a n : Nat) (bs : List Byte) : Prop :=
  bs.length = n ∧ ∀ k b, k < n → s.mem.read (a + k) = some b → bs[k]? = some b

/-- The bytes from offset `a` on hold a string. -/
abbrev HoldsAt (s : State) (a : Nat) (bs : List Byte) : Prop :=
  ∀ k, k < bs.length → s.mem.read (a + k) = bs[k]?

/-- Reading any offset outside the `n` bytes from `a` on gives the same in both states. -/
def SameMemOutside (s t : State) (a n : Nat) : Prop :=
  ∀ x, (x < a ∨ a + n ≤ x) → t.mem.read x = s.mem.read x

/-- The offset and the count of the buffer bytes that an instruction reads (R93, R298); none if it reads none, as a
command does whose argument check fails (R323). -/
def bytesRead (i : Instr) (s : State) : Option (Nat × Nat) :=
  match i with
  | .crcBuf | .addBuf | .decAscii | .decAsciiLen | .decRtu =>
    if s.opOff + s.opLen ≤ 16384 then some (0x4000 + s.opOff, s.opLen) else none
  | .encAscii =>
    if s.opLen ≤ 9999 ∧ s.opOff + s.opLen ≤ 16384 then some (0x4000 + s.opOff, s.opLen) else none
  | .encRtuWr =>
    if s.opRtuCount.toNat ≤ 127 ∧ s.opOff + 2 * s.opRtuCount.toNat ≤ 16384 then
      some (0x4000 + s.opOff, 2 * s.opRtuCount.toNat)
    else none
  | .bufRead b i w => some (bufferBase b + i.toNat, w.bytes)
  | .nop | .crcInit | .addInit | .encRtuRd | .syncReset | .frameAck | .cntClear => none
  | .crcByte _ | .addByte _ | .syncPush _ | .ctrlWrite _ | .statusW1c _ | .irqenWrite _ => none
  | .argWrite _ _ | .regRead _ | .srcWrite _ _ _ => none

/-- An instruction that raises no fault in a state. -/
def SafeToRun (i : Instr) (s : State) : Prop := ∀ f, exec i s ≠ .fault f

/-- The host's next action is the bus access `a`, at the host address that reaches its offset (R80), and `rest` is
what follows. -/
abbrev NextAccess (s : State) (a : BusAccess) (rest : List HostAction) : Prop :=
  ∃ h : HostAccess, s.pending = .access h :: rest ∧ engineOffset s.cfg.base h.addr = some a.offset ∧
    h.busAccess a.offset = a

/-! Kinds of instruction. -/

/-- The instructions that a `CMD` write starts (R111). -/
def isCommand : Instr → Bool
  | .nop | .crcInit | .crcBuf | .addInit | .addBuf | .encAscii | .encRtuRd | .encRtuWr => true
  | .decAscii | .decRtu | .decAsciiLen | .syncReset | .frameAck | .cntClear => true
  | .crcByte _ | .addByte _ | .syncPush _ | .ctrlWrite _ | .statusW1c _ | .irqenWrite _ => false
  | .argWrite _ _ | .regRead _ | .bufRead _ _ _ | .srcWrite _ _ _ => false

/-- The instructions that can deliver a frame (R255): the decode commands and `SYNC_PUSH`. -/
def canDeliver : Instr → Bool
  | .decAscii | .decRtu | .decAsciiLen | .syncPush _ => true
  | .nop | .crcInit | .crcBuf | .addInit | .addBuf | .encAscii | .encRtuRd | .encRtuWr => false
  | .syncReset | .frameAck | .cntClear => false
  | .crcByte _ | .addByte _ | .ctrlWrite _ | .statusW1c _ | .irqenWrite _ => false
  | .argWrite _ _ | .regRead _ | .bufRead _ _ _ | .srcWrite _ _ _ => false

/-- The encoder commands. -/
def isEncoder : Instr → Bool
  | .encAscii | .encRtuRd | .encRtuWr => true
  | .nop | .crcInit | .crcBuf | .addInit | .addBuf | .decAscii | .decRtu | .decAsciiLen => false
  | .syncReset | .frameAck | .cntClear => false
  | .crcByte _ | .addByte _ | .syncPush _ | .ctrlWrite _ | .statusW1c _ | .irqenWrite _ => false
  | .argWrite _ _ | .regRead _ | .bufRead _ _ _ | .srcWrite _ _ _ => false

/-- The data bits of a bus access that an instruction takes; every other bit is ignored (R110, R113, R115). -/
def dataMask : Instr → Word
  | .nop | .crcInit | .crcBuf | .addInit | .addBuf | .encAscii | .encRtuRd | .encRtuWr => 0xFF#32
  | .decAscii | .decRtu | .decAsciiLen | .syncReset | .frameAck | .cntClear => 0xFF#32
  | .crcByte _ | .addByte _ | .syncPush _ => 0xFF#32
  | .ctrlWrite _ => 0x7#32
  | .statusW1c _ => 0x7E#32
  | .irqenWrite _ => 0x7F#32
  | .argWrite _ _ => 0xFFFFFFFF#32
  | .regRead _ | .bufRead _ _ _ => 0#32
  | .srcWrite _ .w8 _ => 0xFF#32
  | .srcWrite _ .w16 _ => 0xFFFF#32
  | .srcWrite _ .w32 _ => 0xFFFFFFFF#32

/-! The invariant. -/

/-- What the synchronizer keeps of `RXB` (R55 and the framing steps R252 to R254): it fits its capacity, it is empty
while the synchronizer is off, and it holds an unfinished frame of the current framing. -/
structure RxbOk (s : State) : Prop where
  fits : s.rxb.length ≤ s.cfg.rxbufCap
  off : s.syncEn = false → s.rxb = []
  ascii : s.rtuMode = false → s.rxb = [] ∨ s.rxb.head? = some s.cfg.hdr
  delim : s.rtuMode = false → s.syncLen = false → findTail s.rxb = none
  declared : s.rtuMode = false → s.syncLen = true →
    s.rxb.length < 13 ∨ (isDec4 s.rxb 9 = true ∧ s.rxb.length < dec4At s.rxb 9 + 17)
  rtuStart : s.rtuMode = true → rtuNeed s.rxb ≠ .noFrame
  rtu : s.rtuMode = true → ∀ k, rtuNeed s.rxb = .total k → s.rxb.length < k

/-- What the frame holding register keeps (R47 to R52, R256): before the first frame all is zero; a loaded frame has
the fields of its kind, and its data bytes stand in `FRP`. -/
structure FrameOk (s : State) : Prop where
  valid : s.frameValid = true → s.frKind ≠ 0#2
  none : s.frKind = 0#2 →
    s.frAddr = 0#16 ∧ s.frFunc = 0#16 ∧ s.frStart = 0#32 ∧ s.frLen = 0#32 ∧ s.frCksum = 0#16
  ascii : s.frKind = 1#2 →
    s.frLen.toNat ≤ 9999 ∧ s.frCksum.toNat < 256 ∧ Written s 0xC000 s.frLen.toNat
  rtuRead : s.frKind = 2#2 →
    s.frAddr.toNat < 256 ∧ s.frFunc = 0x03#16 ∧ s.frStart = 0#32 ∧ s.frLen.toNat < 256 ∧
      Written s 0xC000 s.frLen.toNat
  rtuWrite : s.frKind = 3#2 →
    s.frAddr.toNat < 256 ∧ s.frFunc = 0x10#16 ∧ s.frStart.toNat < 65536 ∧ s.frLen.toNat < 65536

/-- The invariant of the machine: legal parameters, canonical memory, and the two conditions above. -/
structure State.Inv (s : State) : Prop where
  params : s.cfg.Legal
  mem : Memory.wf s.mem
  rxb : RxbOk s
  frame : FrameOk s

/-! The source's frame assembler. -/

/-- §4.4's algorithm for a notification of one byte, as spec/43_synchronizer.md quotes it: append the byte, discard
everything before the header marker (everything, if there is none), and, if a tail marker stands after the header,
cut the buffer past it and give the bytes between the markers. -/
def assemblerNotify (hdr : Byte) (buf : List Byte) (b : Byte) : List Byte × Option (List Byte) :=
  match findHeader hdr (buf ++ [b]) with
  | none => ([], none)
  | some h =>
    match findTail ((buf ++ [b]).drop (h + 1)) with
    | none => ((buf ++ [b]).drop h, none)
    | some k => ((buf ++ [b]).drop (h + 1 + k + 2), some (slice (buf ++ [b]) (h + 1) (h + 1 + k)))

/-- Push a string one byte at a time. -/
def pushAll (bs : List Byte) (s : State) : State := bs.foldl (fun t b => syncPush b t) s

/-- No CR LF pair stands in a string. -/
abbrev NoTail (bs : List Byte) : Prop := findTail bs = none

end Sys2Proof.Machine
end

