-- ==== Sys2Proof/Certificates/Slice0/Obligations.lean ====
section
/-! DEFINITION. The statements about the model, for the provers. Each docstring names the rules of spec/ that the
statement formalises. A read of an unwritten buffer byte is free under `UNINIT_READ = draw`: where a statement speaks
of the bytes `bs` that a command read, `SliceOf` says of an unwritten byte nothing at all. -/

open Sys2Proof Sys2Proof.Machine

/-! ## Encoding -/

/-- R110, R111, R115: no bit of an encoding is dropped. -/
def Obligations.DecodeOfEncodeIsTheInstruction : Prop :=
  ∀ i : Instr, i.wellFormed = true → decode (encode i) = .instr i

/-- R110, R113, R115: an access that carries an instruction is that instruction's encoding but for the ignored data
bits, so no two instructions share an access. -/
def Obligations.AnAccessIsItsEncodingButForIgnoredBits : Prop :=
  ∀ (a : BusAccess) (i : Instr), decode a = .instr i →
    i.wellFormed = true ∧ encode i = { a with data := a.data &&& dataMask i }

/-- R112, R322: a `CMD` write whose opcode is in one of the four ranges ends the command with `BAD_OP` and changes
`RESULT`, `RESLEN` and `STATUS.CMDERR` only; every other opcode is a command of the map, and `NOP`'s only opcode is
0. -/
def Obligations.UndefinedOpcodeEndsWithBadOp : Prop :=
  ∀ v : Word, ∀ op : Nat, op = (v.extractLsb' 0 8).toNat →
    ((0x05 ≤ op ∧ op ≤ 0x0F ∨ 0x13 ≤ op ∧ op ≤ 0x1F ∨ 0x23 ≤ op ∧ op ≤ 0x2F ∨ 0x33 ≤ op) →
      decode ⟨.write, .w32, 0x00C#16, v⟩ = .badOp (v.extractLsb' 0 8) ∧
      ∀ (s : State) (rest : List HostAction), NextAccess s ⟨.write, .w32, 0x00C#16, v⟩ rest →
        step s = .next { s with
          pending := rest, result := 7#3, reslen := 0#32, status := s.status ||| 0x40#7,
          responses := s.responses ++ [.ok] }) ∧
    (¬ (0x05 ≤ op ∧ op ≤ 0x0F ∨ 0x13 ≤ op ∧ op ≤ 0x1F ∨ 0x23 ≤ op ∧ op ≤ 0x2F ∨ 0x33 ≤ op) →
      ∃ i, decode ⟨.write, .w32, 0x00C#16, v⟩ = .instr i ∧ isCommand i = true ∧ (i = .nop ↔ op = 0))

/-- R321: the five cases of a bus error, in their order, are all of them, and each has the one effect that the access
gets an error response. -/
def Obligations.BusErrorExactlyInTheFiveCases : Prop :=
  ∀ (a : BusAccess) (o w : Nat), o = a.offset.toNat → w = a.width.bytes →
    (∀ c, decode a = .busError c ↔
      (if o < 0x100 ∧ (w ≠ 4 ∨ o % 4 ≠ 0) then c = .registerShape
       else if 0x4000 ≤ o ∧ o % w ≠ 0 then c = .misalignedBuffer
       else if 0x74 ≤ o ∧ o < 0x4000 then c = .reservedOffset
       else if a.dir = .write ∧ o < 0x74 ∧
          (o = 0x20 ∨ o = 0x24 ∨ o = 0x28 ∨ o = 0x30 ∨ o = 0x38 ∨ o = 0x3C ∨ 0x44 ≤ o) then c = .readOnlyRegister
       else a.dir = .write ∧ 0x8000 ≤ o ∧ c = .readOnlyBuffer)) ∧
    ∀ (s : State) (rest : List HostAction) (c : BusErrorCase), NextAccess s a rest → decode a = .busError c →
      step s = .next { s with pending := rest, responses := s.responses ++ [.slverr] }

/-- Sample accesses, each written out from the spec's encoding, decode to what they stand for: a command with bits
31:8 set (R295), each kind of register trigger (R115), a register read, and buffer accesses at the ends of the
windows. -/
def Obligations.SampleAccessesDecode : Prop :=
  decode ⟨.write, .w32, 0x000C#16, 0x0000FF01#32⟩ = .instr .crcInit ∧
  decode ⟨.write, .w32, 0x000C#16, 0x00000010#32⟩ = .instr .encAscii ∧
  decode ⟨.write, .w32, 0x000C#16, 0x00000021#32⟩ = .instr .decRtu ∧
  decode ⟨.write, .w32, 0x000C#16, 0x00000031#32⟩ = .instr .frameAck ∧
  decode ⟨.write, .w32, 0x002C#16, 0xFFFFFF01#32⟩ = .instr (.crcByte 0x01#8) ∧
  decode ⟨.write, .w32, 0x0040#16, 0x0000003A#32⟩ = .instr (.syncPush 0x3A#8) ∧
  decode ⟨.write, .w32, 0x0000#16, 0xFFFFFFFE#32⟩ = .instr (.ctrlWrite 0b110#3) ∧
  decode ⟨.write, .w32, 0x0004#16, 0x0000007F#32⟩ = .instr (.statusW1c 0b111111#6) ∧
  decode ⟨.write, .w32, 0x001C#16, 0x00004000#32⟩ = .instr (.argWrite .arg3 0x00004000#32) ∧
  decode ⟨.read, .w32, 0x0070#16, 0x00000000#32⟩ = .instr (.regRead .cntOvr) ∧
  decode ⟨.read, .w16, 0x8006#16, 0x00000000#32⟩ = .instr (.bufRead .tx 0x0006#14 .w16) ∧
  decode ⟨.read, .w8, 0xFFFF#16, 0x00000000#32⟩ = .instr (.bufRead .frp 0x3FFF#14 .w8) ∧
  decode ⟨.write, .w8, 0x7FFF#16, 0x12345678#32⟩ = .instr (.srcWrite 0x3FFF#14 .w8 0x78#32)

/-! ## Steps, reset and responses -/

/-- R9, R80, R295, R355: when the next host action is an access to the engine, the step is the meaning of the
instruction the access decodes to, after the action has been taken from the pending ones. With nothing pending
nothing changes (log entry 2, the model's choice), an access outside the window changes nothing in the engine (log
entry 3, the model's choice), and a reset keeps the actions to come and the responses given (log entry 2). An access
at host address `BASE + o` reaches offset `o`. -/
def Obligations.StepRunsTheDecodedInstruction : Prop :=
  (∀ (s : State) (a : BusAccess) (rest : List HostAction) (i : Instr),
    NextAccess s a rest → decode a = .instr i → step s = exec i { s with pending := rest }) ∧
  (∀ s : State, s.pending = [] → step s = .next s) ∧
  (∀ (s : State) (h : HostAccess) (rest : List HostAction),
    s.pending = .access h :: rest → (h.addr < s.cfg.base ∨ s.cfg.base + 0x10000 ≤ h.addr) →
      step s = .next { s with pending := rest }) ∧
  (∀ (s : State) (h : HostAccess) (rest : List HostAction) (o : Half),
    s.pending = .access h :: rest → h.addr = s.cfg.base + o.toNat →
      NextAccess s ⟨h.dir, h.width, o, h.data⟩ rest) ∧
  (∀ (s : State) (rest : List HostAction), s.pending = .reset :: rest →
    ∃ t, step s = .next t ∧ t.pending = rest ∧ t.responses = s.responses ∧ t.draws = s.draws)

/-- R350: reset sets every piece of state, marks every buffer byte unwritten and keeps the parameters; a faulted run
is not left by a reset that follows. Of the model's own fields it says nothing. -/
def Obligations.ResetSetsEveryPieceOfState : Prop :=
  (∀ (s : State) (rest : List HostAction), s.pending = .reset :: rest →
    ∃ t, step s = .next t ∧
      t = { cfg := s.cfg, ctrl := 0#3, status := 0#7, irqEn := 0#7,
            arg0 := 0#32, arg1 := 0#32, arg2 := 0#32, arg3 := 0#32, result := 0#3, reslen := 0#32,
            crcAcc := 0xFFFF#16, addAcc := 0x00#8, rxb := [],
            frKind := 0#2, frAddr := 0#16, frFunc := 0#16, frStart := 0#32, frLen := 0#32, frCksum := 0#16,
            cntOk := 0#32, cntCkerr := 0#32, cntTrunc := 0#32, cntMalf := 0#32, cntRxovf := 0#32, cntOvr := 0#32,
            mem := [], pending := t.pending, responses := t.responses, draws := t.draws } ∧
      (∀ x, t.mem.read x = none) ∧ t.addHex = 0x3030#32 ∧ t.rxb.length = 0 ∧ t.irq = false) ∧
  (∀ (s : State) (f : Fault) (n : Nat), step s = .fault f → core.run (n + 1) s = .fault f)

/-- R351: what each register reads as after reset, by its offset, the four write-only registers among them; `RXB` is
empty, `irq` is 0 and every buffer byte is unwritten. It holds of `State.reset` and of the state that a reset step
leaves. -/
def Obligations.RegistersReadTheirResetValues : Prop :=
  ∀ t : State, (t = State.reset ∨ ∃ (s : State) (rest : List HostAction), s.pending = .reset :: rest ∧
      step s = .next t) →
    (∀ r : Reg, exec (.regRead r) t = .next { t with
      responses := t.responses ++ [.data (if r.offset = 0x028#16 then 0x0000FFFF#32
        else if r.offset = 0x038#16 then 0x00003030#32 else 0x00000000#32)] }) ∧
    t.rxb = [] ∧ t.irq = false ∧ ∀ x, t.mem.read x = none

/-- R8, R9, R89: an access to the engine that does not fault takes one step, gives exactly one response and leaves
the actions after it: the error response exactly when the access is a bus error, data exactly for a read. -/
def Obligations.EachAccessGivesOneResponse : Prop :=
  ∀ (s t : State) (a : BusAccess) (rest : List HostAction), NextAccess s a rest → step s = .next t →
    t.pending = rest ∧ ∃ r, t.responses = s.responses ++ [r] ∧
      (r = .slverr ↔ ∃ c, decode a = .busError c) ∧
      ((∃ v, r = .data v) ↔ a.dir = .read ∧ ¬ ∃ c, decode a = .busError c)

/-! ## Checksum units -/

/-- R153, R157: `CRC_INIT` and `ADD_INIT` put the seed and the empty sum in the accumulators. -/
def Obligations.InitCommandsSetTheAccumulators : Prop :=
  ∀ s : State,
    exec .crcInit s = .next { s with
      crcAcc := 0xFFFF#16, result := 0#3, reslen := 0#32, responses := s.responses ++ [.ok] } ∧
    exec .addInit s = .next { s with
      addAcc := 0x00#8, result := 0#3, reslen := 0#32, responses := s.responses ++ [.ok] }

/-- R150, R154, R158: one byte into each accumulator by a register write. The CRC step is written out as
R150's eight iterations. -/
def Obligations.ByteWritesUpdateTheAccumulators : Prop :=
  ∀ (s : State) (b : Byte),
    exec (.crcByte b) s = .next { s with
      crcAcc := (fun acc : Half => if acc.getLsbD 0 then (acc >>> 1) ^^^ 0xA001#16 else acc >>> 1)^[8]
        (s.crcAcc ^^^ b.zeroExtend 16),
      responses := s.responses ++ [.ok] } ∧
    exec (.addByte b) s = .next { s with
      addAcc := BitVec.ofNat 8 ((s.addAcc.toNat + b.toNat) % 256), responses := s.responses ++ [.ok] }

/-- R154, R158: after `CRC_INIT` a sequence of `CRC_BYTE` writes leaves `CRC16Modbus` of the sequence in `CRC_ACC`,
and after `ADD_INIT` a sequence of `ADD_BYTE` writes leaves `Additive8` of it in `ADD_ACC`. Both are the spec's own
inferences from R150 to R153 and R157. -/
def Obligations.StreamedBytesGiveTheChecksum : Prop :=
  ∀ (s : State) (bs : List Byte),
    (bs.foldl (fun o b => match o with | .next t => exec (.crcByte b) t | .fault f => .fault f | .refused r => .refused r)
      (exec .crcInit s) = .next { s with
        crcAcc := crc16Modbus bs, result := 0#3, reslen := 0#32,
        responses := s.responses ++ List.replicate (bs.length + 1) .ok }) ∧
    (bs.foldl (fun o b => match o with | .next t => exec (.addByte b) t | .fault f => .fault f | .refused r => .refused r)
      (exec .addInit s) = .next { s with
        addAcc := additive8 bs, result := 0#3, reslen := 0#32,
        responses := s.responses ++ List.replicate (bs.length + 1) .ok })

/-- R155, R159, R93: `CRC_BUF` and `ADD_BUF` over a range inside `SRC` whose bytes can be read. -/
def Obligations.BufferChecksumCommands : Prop :=
  ∀ s : State, s.arg3.toNat + s.arg2.toNat ≤ 16384 → Readable s (0x4000 + s.arg3.toNat) s.arg2.toNat →
    ∃ (bs : List Byte) (d : Nat), SliceOf s (0x4000 + s.arg3.toNat) s.arg2.toNat bs ∧
      (Written s (0x4000 + s.arg3.toNat) s.arg2.toNat → d = s.draws) ∧
      exec .crcBuf s = .next { s with
        crcAcc := crc16Modbus bs, result := 0#3, reslen := s.arg2,
        responses := s.responses ++ [.ok], draws := d } ∧
      exec .addBuf s = .next { s with
        addAcc := additive8 bs, result := 0#3, reslen := s.arg2,
        responses := s.responses ++ [.ok], draws := d }

/-- R151: a string followed by its own CRC, low byte first, has CRC 0. The spec infers it from its vectors and takes it
for every string from general knowledge. -/
def Obligations.CrcOfAStringWithItsCrcIsZero : Prop :=
  ∀ bs : List Byte, crc16Modbus (bs ++ [(crc16Modbus bs).extractLsb' 0 8, (crc16Modbus bs).extractLsb' 8 8]) = 0#16

/-- R152: `Additive8` is the sum of the bytes modulo 256. That it does not depend on their order is the spec's own
inference from R152. -/
def Obligations.AdditiveChecksumIsTheSumInAnyOrder : Prop :=
  ∀ bs : List Byte, (additive8 bs).toNat = (bs.map BitVec.toNat).sum % 256 ∧
    ∀ cs : List Byte, bs.Perm cs → additive8 cs = additive8 bs

/-- R161: no codec command and no synchronizer step reads or writes an accumulator: started with other accumulators,
it does the same and leaves those. -/
def Obligations.CodecsNeverUseTheAccumulators : Prop :=
  ∀ (i : Instr) (s : State) (c : Half) (d : Byte), isEncoder i = true ∨ canDeliver i = true →
    (∀ t, exec i s = .next t → t.crcAcc = s.crcAcc ∧ t.addAcc = s.addAcc ∧
      exec i { s with crcAcc := c, addAcc := d } = .next { t with crcAcc := c, addAcc := d }) ∧
    (∀ f, exec i s = .fault f → exec i { s with crcAcc := c, addAcc := d } = .fault f)

/-! ## ASCII codec -/

/-- R182: `ENC_ASCII` with a payload of at most 9999 bytes inside `SRC` writes the frame to `TX` and nothing else of
memory. -/
def Obligations.EncAsciiWritesTheFrame : Prop :=
  ∀ s : State, s.arg2.toNat ≤ 9999 → s.arg3.toNat + s.arg2.toNat ≤ 16384 →
    Readable s (0x4000 + s.arg3.toNat) s.arg2.toNat →
    ∃ (p : List Byte) (t : State), SliceOf s (0x4000 + s.arg3.toNat) s.arg2.toNat p ∧
      exec .encAscii s = .next t ∧
      t = { s with
        mem := t.mem, draws := t.draws, result := 0#3, reslen := BitVec.ofNat 32 (s.arg2.toNat + 17),
        responses := s.responses ++ [.ok] } ∧
      (Written s (0x4000 + s.arg3.toNat) s.arg2.toNat → t.draws = s.draws) ∧
      HoldsAt t 0x8000 (encodeAscii s.cfg.hdr
        [s.arg0.extractLsb' 0 8, s.arg0.extractLsb' 8 8] [s.arg0.extractLsb' 16 8, s.arg0.extractLsb' 24 8]
        [s.arg1.extractLsb' 0 8, s.arg1.extractLsb' 8 8, s.arg1.extractLsb' 16 8, s.arg1.extractLsb' 24 8] p) ∧
      SameMemOutside s t 0x8000 (s.arg2.toNat + 17)

/-- R116, R117: the layout of an ASCII frame, field by field, with the checksum over the bytes between the header
marker and the checksum field. -/
def Obligations.AsciiFrameLayout : Prop :=
  ∀ (hdr : Byte) (a f st p fr : List Byte), a.length = 2 → f.length = 2 → st.length = 4 → p.length ≤ 9999 →
    fr = encodeAscii hdr a f st p →
    fr.length = p.length + 17 ∧
    slice fr 0 1 = [hdr] ∧ slice fr 1 3 = a ∧ slice fr 3 5 = f ∧ slice fr 5 9 = st ∧
    (∃ d3 d2 d1 d0 : Nat, d3 < 10 ∧ d2 < 10 ∧ d1 < 10 ∧ d0 < 10 ∧
      1000 * d3 + 100 * d2 + 10 * d1 + d0 = p.length ∧
      slice fr 9 13 = [BitVec.ofNat 8 (0x30 + d3), BitVec.ofNat 8 (0x30 + d2),
        BitVec.ofNat 8 (0x30 + d1), BitVec.ofNat 8 (0x30 + d0)]) ∧
    slice fr 13 (13 + p.length) = p ∧
    (∃ c1 c0 : Byte, slice fr (13 + p.length) (15 + p.length) = [c1, c0] ∧
      (isDec c1 = true ∨ 0x41#8 ≤ c1 ∧ c1 ≤ 0x46#8) ∧ (isDec c0 = true ∨ 0x41#8 ≤ c0 ∧ c0 ≤ 0x46#8) ∧
      16#8 * hexVal c1 + hexVal c0 = additive8 (slice fr 1 (13 + p.length))) ∧
    slice fr (15 + p.length) (17 + p.length) = [0x0D#8, 0x0A#8]

/-- R183: the first check that fails gives the result, and a body that passes them all gives the record of step 7. -/
def Obligations.DecodeBodyChecksInOrder : Prop :=
  ∀ (body : List Byte) (m : Nat) (c1 c0 : Byte) (L : Nat), m = body.length →
    c1 = body.getD (m - 2) 0 → c0 = body.getD (m - 1) 0 →
    L = 1000 * (body.getD 8 0 - 0x30#8).toNat + 100 * (body.getD 9 0 - 0x30#8).toNat +
      10 * (body.getD 10 0 - 0x30#8).toNat + (body.getD 11 0 - 0x30#8).toNat →
    (m < 2 → decodeBody body = .invalid .truncated) ∧
    (2 ≤ m → ¬ (isHex c1 = true ∧ isHex c0 = true) → decodeBody body = .invalid .malformed) ∧
    (2 ≤ m → isHex c1 = true → isHex c0 = true →
      (additive8 (body.take (m - 2)) ≠ 16#8 * hexVal c1 + hexVal c0 → decodeBody body = .invalid .checksumMismatch) ∧
      (additive8 (body.take (m - 2)) = 16#8 * hexVal c1 + hexVal c0 →
        (m < 14 → decodeBody body = .invalid .truncated) ∧
        (14 ≤ m → (∃ k, 8 ≤ k ∧ k < 12 ∧ isDec (body.getD k 0) = false) → decodeBody body = .invalid .malformed) ∧
        (14 ≤ m → (∀ k, 8 ≤ k → k < 12 → isDec (body.getD k 0) = true) →
          (m - 14 < L → decodeBody body = .invalid .truncated) ∧
          (L < m - 14 → decodeBody body = .invalid .malformed) ∧
          (L = m - 14 → decodeBody body = .frame
            { kind := .ascii, addr := body.getD 1 0 ++ body.getD 0 0, func := body.getD 3 0 ++ body.getD 2 0,
              start := body.getD 7 0 ++ (body.getD 6 0 ++ (body.getD 5 0 ++ body.getD 4 0)),
              len := BitVec.ofNat 32 L, ck := (16#8 * hexVal c1 + hexVal c0).zeroExtend 16,
              data := some ((body.drop 12).take L) }))))

/-- R116, R183: the bodies that `DecodeBody` accepts are exactly the encoder's, but for the case of the checksum
digits, and the record has the fields of the body. -/
def Obligations.DecodeBodyAcceptsExactlyEncodedBodies : Prop :=
  ∀ (body : List Byte) (r : FrameRec), decodeBody body = .frame r ↔
    ∃ (a0 a1 f0 f1 s0 s1 s2 s3 : Byte) (p : List Byte) (c1 c0 : Byte) (inner : List Byte),
      p.length ≤ 9999 ∧ inner = [a0, a1, f0, f1, s0, s1, s2, s3] ++ dec4 p.length ++ p ∧
      body = inner ++ [c1, c0] ∧ isHex c1 = true ∧ isHex c0 = true ∧
      16#8 * hexVal c1 + hexVal c0 = additive8 inner ∧
      r = { kind := .ascii, addr := a1 ++ a0, func := f1 ++ f0, start := s3 ++ (s2 ++ (s1 ++ s0)),
            len := BitVec.ofNat 32 p.length, ck := (additive8 inner).zeroExtend 16, data := some p }

/-- R184: `DecodeBuffer` decodes what stands between the first header marker and the first tail marker after it, and
answers `(NeedMoreData, 0)`, written `none`, if either is missing. -/
def Obligations.DecodeBufferScansForTheDelimiters : Prop :=
  ∀ (hdr : Byte) (buf : List Byte),
    (hdr ∉ buf → decodeBuffer hdr buf = none) ∧
    ∀ h, buf[h]? = some hdr → (∀ j, j < h → buf[j]? ≠ some hdr) →
      ((∀ t, h + 1 ≤ t → ¬ (buf[t]? = some 0x0D#8 ∧ buf[t + 1]? = some 0x0A#8)) → decodeBuffer hdr buf = none) ∧
      ∀ t, h + 1 ≤ t → buf[t]? = some 0x0D#8 → buf[t + 1]? = some 0x0A#8 →
        (∀ j, h + 1 ≤ j → j < t → ¬ (buf[j]? = some 0x0D#8 ∧ buf[j + 1]? = some 0x0A#8)) →
        decodeBuffer hdr buf = some (decodeBody ((buf.drop (h + 1)).take (t - (h + 1))), t + 2)

/-- R185: `DecodeBufferLen` takes the frame's end from its length field. That it never answers `Truncated` is the
spec's own inference from R183 and R185. -/
def Obligations.DecodeBufferLenFramesByDeclaredLength : Prop :=
  ∀ (hdr : Byte) (buf : List Byte),
    (hdr ∉ buf → decodeBufferLen hdr buf = none) ∧
    (∀ n, decodeBufferLen hdr buf ≠ some (.invalid .truncated, n)) ∧
    ∀ h L, buf[h]? = some hdr → (∀ j, j < h → buf[j]? ≠ some hdr) →
      L = dec4Val (buf.getD (h + 9) 0) (buf.getD (h + 10) 0) (buf.getD (h + 11) 0) (buf.getD (h + 12) 0) →
      (buf.length < h + 13 → decodeBufferLen hdr buf = none) ∧
      (h + 13 ≤ buf.length → (∃ k, 9 ≤ k ∧ k < 13 ∧ isDec (buf.getD (h + k) 0) = false) →
        decodeBufferLen hdr buf = some (.invalid .malformed, h + 13)) ∧
      (h + 13 ≤ buf.length → (∀ k, 9 ≤ k → k < 13 → isDec (buf.getD (h + k) 0) = true) →
        (buf.length < h + L + 17 → decodeBufferLen hdr buf = none) ∧
        (h + L + 17 ≤ buf.length →
          ¬ (buf[h + L + 15]? = some 0x0D#8 ∧ buf[h + L + 16]? = some 0x0A#8) →
          decodeBufferLen hdr buf = some (.invalid .malformed, h + L + 17)) ∧
        (h + L + 17 ≤ buf.length → buf[h + L + 15]? = some 0x0D#8 → buf[h + L + 16]? = some 0x0A#8 →
          decodeBufferLen hdr buf = some (decodeBody ((buf.drop (h + 1)).take (L + 14)), h + L + 17)))

/-- R189: decoding an encoded frame gives the payload back: always under declared-length decoding, and under delimiter
decoding exactly when no CR LF pair stands in the fields or in the payload; otherwise the frame is cut at the first
such pair. R189 is the spec's own inference from R180 and R183 to R185. -/
def Obligations.AsciiRoundTrip : Prop :=
  ∀ (hdr a0 a1 f0 f1 s0 s1 s2 s3 : Byte) (p fr : List Byte) (r : FrameRec),
    hdr ≠ 0x0D#8 → hdr ≠ 0x0A#8 → p.length ≤ 9999 →
    fr = encodeAscii hdr [a0, a1] [f0, f1] [s0, s1, s2, s3] p →
    r = { kind := .ascii, addr := a1 ++ a0, func := f1 ++ f0, start := s3 ++ (s2 ++ (s1 ++ s0)),
          len := BitVec.ofNat 32 p.length,
          ck := (additive8 ([a0, a1, f0, f1, s0, s1, s2, s3] ++ dec4 p.length ++ p)).zeroExtend 16,
          data := some p } →
    decodeBufferLen hdr fr = some (.frame r, p.length + 17) ∧
    (decodeBuffer hdr fr = some (.frame r, p.length + 17) ↔
      NoTail [a0, a1, f0, f1, s0, s1, s2, s3] ∧ NoTail p) ∧
    (∀ t, 1 ≤ t → fr[t]? = some 0x0D#8 → fr[t + 1]? = some 0x0A#8 →
      (∀ j, 1 ≤ j → j < t → ¬ (fr[j]? = some 0x0D#8 ∧ fr[j + 1]? = some 0x0A#8)) →
      decodeBuffer hdr fr = some (decodeBody ((fr.drop 1).take (t - 1)), t + 2))

/-- R186, R187: the two ASCII decode commands over a range inside `SRC` whose bytes can be read: `NEED_MORE` with
`RESLEN` 0, or a delivery whose code is `RESULT` and whose count of consumed bytes is `RESLEN`. -/
def Obligations.AsciiDecodeCommandsDeliver : Prop :=
  ∀ s : State, s.arg3.toNat + s.arg2.toNat ≤ 16384 → Readable s (0x4000 + s.arg3.toNat) s.arg2.toNat →
    ∃ (buf : List Byte) (u : State), SliceOf s (0x4000 + s.arg3.toNat) s.arg2.toNat buf ∧
      u = { s with draws := u.draws } ∧ (Written s (0x4000 + s.arg3.toNat) s.arg2.toNat → u = s) ∧
      exec .decAscii s = .next
        (match decodeBuffer s.cfg.hdr buf with
         | none => { u with result := 1#3, reslen := 0#32, responses := s.responses ++ [.ok] }
         | some (r, used) => { (u.deliver r).2 with
             result := (u.deliver r).1.code, reslen := BitVec.ofNat 32 used, responses := s.responses ++ [.ok] }) ∧
      exec .decAsciiLen s = .next
        (match decodeBufferLen s.cfg.hdr buf with
         | none => { u with result := 1#3, reslen := 0#32, responses := s.responses ++ [.ok] }
         | some (r, used) => { (u.deliver r).2 with
             result := (u.deliver r).1.code, reslen := BitVec.ofNat 32 used, responses := s.responses ++ [.ok] })

/-! ## RTU codec -/

/-- R118, R220, R221: `ENC_RTU_RD` completes in every state, for every operand, and writes the eight bytes of the read
request to `TX`. -/
def Obligations.EncRtuRdWritesTheRequest : Prop :=
  ∀ (s : State) (c : Half),
    c = crc16Modbus [s.arg0.extractLsb' 0 8, 0x03#8, s.arg1.extractLsb' 8 8, s.arg1.extractLsb' 0 8,
      s.arg2.extractLsb' 8 8, s.arg2.extractLsb' 0 8] →
    ∃ t : State, exec .encRtuRd s = .next t ∧
      t = { s with mem := t.mem, result := 0#3, reslen := 8#32, responses := s.responses ++ [.ok] } ∧
      HoldsAt t 0x8000 [s.arg0.extractLsb' 0 8, 0x03#8, s.arg1.extractLsb' 8 8, s.arg1.extractLsb' 0 8,
        s.arg2.extractLsb' 8 8, s.arg2.extractLsb' 0 8, c.extractLsb' 0 8, c.extractLsb' 8 8] ∧
      SameMemOutside s t 0x8000 8

/-- R120, R222, R223: `ENC_RTU_WR` with a register count of at most 127 and its data inside `SRC` writes the write
request to `TX`. The byte count's value and the CRC's byte order are the spec's own inference from R118 and R119. -/
def Obligations.EncRtuWrWritesTheRequest : Prop :=
  ∀ (s : State) (n : Nat), n = (s.arg2.extractLsb' 0 16).toNat → n ≤ 127 → s.arg3.toNat + 2 * n ≤ 16384 →
    Readable s (0x4000 + s.arg3.toNat) (2 * n) →
    ∃ (data f : List Byte) (t : State), SliceOf s (0x4000 + s.arg3.toNat) (2 * n) data ∧
      f = [s.arg0.extractLsb' 0 8, 0x10#8, s.arg1.extractLsb' 8 8, s.arg1.extractLsb' 0 8,
        s.arg2.extractLsb' 8 8, s.arg2.extractLsb' 0 8, BitVec.ofNat 8 (2 * n)] ++ data ∧
      exec .encRtuWr s = .next t ∧
      t = { s with
        mem := t.mem, draws := t.draws, result := 0#3, reslen := BitVec.ofNat 32 (9 + 2 * n),
        responses := s.responses ++ [.ok] } ∧
      (Written s (0x4000 + s.arg3.toNat) (2 * n) → t.draws = s.draws) ∧
      HoldsAt t 0x8000 (f ++ [(crc16Modbus f).extractLsb' 0 8, (crc16Modbus f).extractLsb' 8 8]) ∧
      SameMemOutside s t 0x8000 (9 + 2 * n)

/-- R224: the first check that fails gives the result, the CRC before the layout, and a frame that passes them all
gives the record of its kind. -/
def Obligations.DecodeRtuChecksInOrder : Prop :=
  ∀ (fr : List Byte) (n N : Nat) (f : Byte) (rx : Half), n = fr.length → f = fr.getD 1 0 → N = (fr.getD 2 0).toNat →
    rx = fr.getD (n - 1) 0 ++ fr.getD (n - 2) 0 →
    (n < 4 → decodeRtu fr = .invalid .truncated) ∧
    (4 ≤ n → crc16Modbus (fr.take (n - 2)) ≠ rx → decodeRtu fr = .invalid .checksumMismatch) ∧
    (4 ≤ n → crc16Modbus (fr.take (n - 2)) = rx →
      (f = 0x03#8 → n < 5 → decodeRtu fr = .invalid .truncated) ∧
      (f = 0x03#8 → n < 5 + N → decodeRtu fr = .invalid .truncated) ∧
      (f = 0x03#8 → 5 + N < n → decodeRtu fr = .invalid .malformed) ∧
      (f = 0x03#8 → n = 5 + N → decodeRtu fr = .frame
        { kind := .rtuRead, addr := (fr.getD 0 0).zeroExtend 16, func := 0x03#16, start := 0#32,
          len := BitVec.ofNat 32 N, ck := rx, data := some ((fr.drop 3).take N) }) ∧
      (f = 0x10#8 → n < 8 → decodeRtu fr = .invalid .truncated) ∧
      (f = 0x10#8 → 8 < n → decodeRtu fr = .invalid .malformed) ∧
      (f = 0x10#8 → n = 8 → decodeRtu fr = .frame
        { kind := .rtuWrite, addr := (fr.getD 0 0).zeroExtend 16, func := 0x10#16,
          start := (fr.getD 2 0 ++ fr.getD 3 0 : BitVec 16).zeroExtend 32,
          len := (fr.getD 4 0 ++ fr.getD 5 0 : BitVec 16).zeroExtend 32, ck := rx, data := none }) ∧
      (f ≠ 0x03#8 → f ≠ 0x10#8 → decodeRtu fr = .invalid .malformed))

/-- R119, R121, R224: the frames that `DecodeRTU` accepts are exactly the read and write responses of the wire format
with a right CRC, and the record has their fields. -/
def Obligations.DecodeRtuAcceptsExactlyTheResponses : Prop :=
  ∀ (fr : List Byte) (r : FrameRec), decodeRtu fr = .frame r ↔
    (∃ (addr : Byte) (data f : List Byte), data.length ≤ 255 ∧
      f = [addr, 0x03#8, BitVec.ofNat 8 data.length] ++ data ∧
      fr = f ++ [(crc16Modbus f).extractLsb' 0 8, (crc16Modbus f).extractLsb' 8 8] ∧
      r = { kind := .rtuRead, addr := addr.zeroExtend 16, func := 0x03#16, start := 0#32,
            len := BitVec.ofNat 32 data.length, ck := crc16Modbus f, data := some data }) ∨
    (∃ (addr st1 st0 n1 n0 : Byte) (f : List Byte),
      f = [addr, 0x10#8, st1, st0, n1, n0] ∧
      fr = f ++ [(crc16Modbus f).extractLsb' 0 8, (crc16Modbus f).extractLsb' 8 8] ∧
      r = { kind := .rtuWrite, addr := addr.zeroExtend 16, func := 0x10#16,
            start := (st1 ++ st0 : BitVec 16).zeroExtend 32, len := (n1 ++ n0 : BitVec 16).zeroExtend 32,
            ck := crc16Modbus f, data := none })

/-- R225: `DEC_RTU` over a range inside `SRC` whose bytes can be read delivers the result; `RESLEN` is the length of
the input. -/
def Obligations.DecRtuDelivers : Prop :=
  ∀ s : State, s.arg3.toNat + s.arg2.toNat ≤ 16384 → Readable s (0x4000 + s.arg3.toNat) s.arg2.toNat →
    ∃ (fr : List Byte) (u : State), SliceOf s (0x4000 + s.arg3.toNat) s.arg2.toNat fr ∧
      u = { s with draws := u.draws } ∧ (Written s (0x4000 + s.arg3.toNat) s.arg2.toNat → u = s) ∧
      exec .decRtu s = .next { (u.deliver (decodeRtu fr)).2 with
        result := (u.deliver (decodeRtu fr)).1.code, reslen := s.arg2, responses := s.responses ++ [.ok] }

/-- R227: the length that `RTUNeed` tells of a string. That a frame of that length can fail only its CRC check is the
spec's own inference from R224 and R227. -/
def Obligations.RtuNeedTellsTheFrameLength : Prop :=
  ∀ b : List Byte,
    (b.length < 2 → rtuNeed b = .unknown) ∧
    (b.length = 2 → b[1]? = some 0x03#8 → rtuNeed b = .unknown) ∧
    (∀ N, b[1]? = some 0x03#8 → b[2]? = some N → rtuNeed b = .total (5 + N.toNat)) ∧
    (b[1]? = some 0x10#8 → rtuNeed b = .total 8) ∧
    (∀ f, b[1]? = some f → f ≠ 0x03#8 → f ≠ 0x10#8 → rtuNeed b = .noFrame) ∧
    (∀ (k : Nat) (fr : List Byte) (e : InvalidKind), rtuNeed b = .total k → fr.length = k →
      fr[0]? = b[0]? → fr[1]? = b[1]? → (b[1]? = some 0x03#8 → fr[2]? = b[2]?) →
      decodeRtu fr = .invalid e → e = .checksumMismatch)

/-! ## Synchronizer and frame holding register -/

/-- R251: what a byte pushed does: nothing while the synchronizer is off; otherwise the overflow, if `RXB` is full,
and then the framing step of the mode. -/
def Obligations.SyncPushRunsTheFramingStep : Prop :=
  ∀ (b : Byte) (s : State), ∃ t : State,
    exec (.syncPush b) s = .next { t with responses := s.responses ++ [.ok] } ∧
    (s.ctrl.getLsbD 1 = false → t = s) ∧
    (s.ctrl.getLsbD 1 = true → ∃ u : State,
      (s.rxb.length ≠ s.cfg.rxbufCap → u = s) ∧
      (s.rxb.length = s.cfg.rxbufCap → u = { s with
        rxb := [], status := s.status ||| 0x20#7, cntRxovf := s.cntRxovf + 1#32 }) ∧
      (s.ctrl.getLsbD 0 = false → s.ctrl.getLsbD 2 = false → t = asciiDelimStep b u) ∧
      (s.ctrl.getLsbD 0 = false → s.ctrl.getLsbD 2 = true → t = asciiLenStep b u) ∧
      (s.ctrl.getLsbD 0 = true → t = rtuStep b u))

/-- R252: the delimiter framing step. -/
def Obligations.AsciiDelimiterStep : Prop :=
  ∀ (b : Byte) (s : State),
    (s.rxb = [] → b = s.cfg.hdr → asciiDelimStep b s = { s with rxb := [b] }) ∧
    (s.rxb = [] → b ≠ s.cfg.hdr → asciiDelimStep b s = s) ∧
    (2 ≤ s.rxb.length → s.rxb.getLast? = some 0x0D#8 → b = 0x0A#8 →
      asciiDelimStep b s = ({ s with rxb := [] }.deliver (decodeBody s.rxb.tail.dropLast)).2) ∧
    (s.rxb ≠ [] → ¬ (2 ≤ s.rxb.length ∧ s.rxb.getLast? = some 0x0D#8 ∧ b = 0x0A#8) →
      asciiDelimStep b s = { s with rxb := s.rxb ++ [b] })

/-- R253: the declared-length framing step. -/
def Obligations.AsciiDeclaredLengthStep : Prop :=
  ∀ (b : Byte) (s : State) (rx : List Byte) (L : Nat), rx = s.rxb ++ [b] →
    L = dec4Val (rx.getD 9 0) (rx.getD 10 0) (rx.getD 11 0) (rx.getD 12 0) →
    (s.rxb = [] → b = s.cfg.hdr → asciiLenStep b s = { s with rxb := [b] }) ∧
    (s.rxb = [] → b ≠ s.cfg.hdr → asciiLenStep b s = s) ∧
    (s.rxb ≠ [] → rx.length < 13 → asciiLenStep b s = { s with rxb := rx }) ∧
    (13 ≤ rx.length → (∃ k, 9 ≤ k ∧ k < 13 ∧ isDec (rx.getD k 0) = false) →
      asciiLenStep b s = ({ s with rxb := [] }.deliver (.invalid .malformed)).2) ∧
    (13 ≤ rx.length → (∀ k, 9 ≤ k → k < 13 → isDec (rx.getD k 0) = true) →
      (rx.length < L + 17 → asciiLenStep b s = { s with rxb := rx }) ∧
      (L + 17 ≤ rx.length → s.rxb.getLast? = some 0x0D#8 → b = 0x0A#8 →
        asciiLenStep b s = ({ s with rxb := [] }.deliver (decodeBody s.rxb.tail.dropLast)).2) ∧
      (L + 17 ≤ rx.length → ¬ (s.rxb.getLast? = some 0x0D#8 ∧ b = 0x0A#8) →
        asciiLenStep b s = ({ s with rxb := [] }.deliver (.invalid .malformed)).2))

/-- R254: the RTU framing step. -/
def Obligations.RtuFramingStep : Prop :=
  ∀ (b : Byte) (s : State) (rx : List Byte), rx = s.rxb ++ [b] →
    (rtuNeed rx = .unknown → rtuStep b s = { s with rxb := rx }) ∧
    (rtuNeed rx = .noFrame → rtuStep b s = ({ s with rxb := [] }.deliver (.invalid .malformed)).2) ∧
    (rtuNeed rx = .total rx.length → rtuStep b s = ({ s with rxb := [] }.deliver (decodeRtu rx)).2) ∧
    (∀ k, rtuNeed rx = .total k → k ≠ rx.length → rtuStep b s = { s with rxb := rx })

/-- R255, R256: a delivery: a frame loads the holding register when it is free and is dropped as an overrun when it is
not; an invalid result sets its sticky bit and counts. Everything else is unchanged, bytes of `FRP` past the data
among it. -/
def Obligations.DeliverRecordsTheResult : Prop :=
  ∀ s : State,
    (∀ r : FrameRec, s.status.getLsbD 0 = true →
      s.deliver (.frame r) = (.overrun, { s with status := s.status ||| 0x02#7, cntOvr := s.cntOvr + 1#32 })) ∧
    (∀ r : FrameRec, s.status.getLsbD 0 = false → ∃ t : State, s.deliver (.frame r) = (.ok, t) ∧
      t = { s with
        frKind := (match r.kind with | .ascii => 1#2 | .rtuRead => 2#2 | .rtuWrite => 3#2),
        frAddr := r.addr, frFunc := r.func, frStart := r.start, frLen := r.len, frCksum := r.ck,
        status := s.status ||| 0x01#7, cntOk := s.cntOk + 1#32, mem := t.mem } ∧
      (r.data = none → t.mem = s.mem) ∧
      (∀ d, r.data = some d → HoldsAt t 0xC000 d ∧ SameMemOutside s t 0xC000 d.length)) ∧
    s.deliver (.invalid .checksumMismatch) =
      (.cksumMismatch, { s with status := s.status ||| 0x04#7, cntCkerr := s.cntCkerr + 1#32 }) ∧
    s.deliver (.invalid .truncated) =
      (.truncated, { s with status := s.status ||| 0x08#7, cntTrunc := s.cntTrunc + 1#32 }) ∧
    s.deliver (.invalid .malformed) =
      (.malformed, { s with status := s.status ||| 0x10#7, cntMalf := s.cntMalf + 1#32 })

/-- R259, R260: `FRAME_ACK` clears `FRAME_VALID` and `SYNC_RESET` empties `RXB`; nothing else changes but the result. -/
def Obligations.FrameAckAndSyncReset : Prop :=
  ∀ s : State,
    exec .frameAck s = .next { s with
      status := s.status &&& 0x7E#7, result := 0#3, reslen := 0#32, responses := s.responses ++ [.ok] } ∧
    exec .syncReset s = .next { s with
      rxb := [], result := 0#3, reslen := 0#32, responses := s.responses ++ [.ok] }

/-- R261: delimiter framing is §4.4's algorithm for notifications of one byte, in every state that the synchronizer
keeps. R261 is the spec's own inference from R251 and R252. -/
def Obligations.DelimiterFramingIsTheAssembler : Prop :=
  ∀ (b : Byte) (s : State), s.cfg.Legal → RxbOk s → s.rtuMode = false → s.syncLen = false →
    asciiDelimStep b s =
      (match assemblerNotify s.cfg.hdr s.rxb b with
       | (rest, none) => { s with rxb := rest }
       | (rest, some body) => ({ s with rxb := rest }.deliver (decodeBody body)).2)

/-- R262: a frame pushed one byte at a time from an empty buffer only fills `RXB` until its last byte, which makes the
one delivery, in all three framings; a frame with a wrong checksum loads nothing and does not set `FRAME_VALID`. R262 is
the spec's own inference from R251 to R254. -/
def Obligations.APushedFrameIsDeliveredOnce : Prop :=
  ∀ s : State, s.cfg.Legal → s.syncEn = true → s.rxb = [] →
    (s.rtuMode = false → s.syncLen = false → ∀ body fr : List Byte,
      fr = [s.cfg.hdr] ++ body ++ [0x0D#8, 0x0A#8] → findTail (body ++ [0x0D#8, 0x0A#8]) = some body.length →
      fr.length ≤ s.cfg.rxbufCap →
      (∀ k, k < fr.length → pushAll (fr.take k) s = { s with rxb := fr.take k }) ∧
      pushAll fr s = (s.deliver (decodeBody body)).2 ∧
      (decodeBody body = .invalid .checksumMismatch → pushAll fr s = { s with
        status := s.status ||| 0x04#7, cntCkerr := s.cntCkerr + 1#32 })) ∧
    (s.rtuMode = false → s.syncLen = true → ∀ body fr : List Byte,
      fr = [s.cfg.hdr] ++ body ++ [0x0D#8, 0x0A#8] → isDec4 body 8 = true → body.length = dec4At body 8 + 14 →
      fr.length ≤ s.cfg.rxbufCap →
      (∀ k, k < fr.length → pushAll (fr.take k) s = { s with rxb := fr.take k }) ∧
      pushAll fr s = (s.deliver (decodeBody body)).2 ∧
      (decodeBody body = .invalid .checksumMismatch → pushAll fr s = { s with
        status := s.status ||| 0x04#7, cntCkerr := s.cntCkerr + 1#32 })) ∧
    (s.rtuMode = true → ∀ fr : List Byte, rtuNeed fr = .total fr.length →
      (∀ k, k < fr.length → pushAll (fr.take k) s = { s with rxb := fr.take k }) ∧
      pushAll fr s = (s.deliver (decodeRtu fr)).2 ∧
      (decodeRtu fr = .invalid .checksumMismatch → pushAll fr s = { s with
        status := s.status ||| 0x04#7, cntCkerr := s.cntCkerr + 1#32 }))

/-- R330, R254: one access makes at most one delivery; an overflow and a delivery never fall in the same push; in RTU
framing nothing overflows. All three are the spec's own inferences, R330's from R251 to R255 and R254's from R227 and
R251. -/
def Obligations.AtMostOneDeliveryInAnAccess : Prop :=
  ∀ (i : Instr) (s t : State), s.Inv → exec i s = .next t → i ≠ .cntClear →
    (t.cntOk, t.cntOvr, t.cntCkerr, t.cntTrunc, t.cntMalf) ∈
      [(s.cntOk, s.cntOvr, s.cntCkerr, s.cntTrunc, s.cntMalf),
       (s.cntOk + 1#32, s.cntOvr, s.cntCkerr, s.cntTrunc, s.cntMalf),
       (s.cntOk, s.cntOvr + 1#32, s.cntCkerr, s.cntTrunc, s.cntMalf),
       (s.cntOk, s.cntOvr, s.cntCkerr + 1#32, s.cntTrunc, s.cntMalf),
       (s.cntOk, s.cntOvr, s.cntCkerr, s.cntTrunc + 1#32, s.cntMalf),
       (s.cntOk, s.cntOvr, s.cntCkerr, s.cntTrunc, s.cntMalf + 1#32)] ∧
    (t.cntRxovf ≠ s.cntRxovf →
      t.cntOk = s.cntOk ∧ t.cntOvr = s.cntOvr ∧ t.cntCkerr = s.cntCkerr ∧ t.cntTrunc = s.cntTrunc ∧
        t.cntMalf = s.cntMalf) ∧
    (s.rtuMode = true → s.rxb.length < 260 ∧ t.cntRxovf = s.cntRxovf)

/-! ## Registers, control commands and buffers -/

/-- R290: what a read of each register returns, with no side effect; a read of a reserved offset is a bus error.
`RXCOUNT` is the length of `RXB`, said here for lengths that 32 bits hold (for others it is free, log entry 8). -/
def Obligations.RegisterReadReturnsTheRegister : Prop :=
  ∀ (s : State) (d : Word),
    (∀ p ∈ ([(0x000#16, s.ctrl.zeroExtend 32), (0x004#16, s.status.zeroExtend 32), (0x008#16, s.irqEn.zeroExtend 32),
        (0x00C#16, 0#32), (0x02C#16, 0#32), (0x034#16, 0#32), (0x040#16, 0#32),
        (0x010#16, s.arg0), (0x014#16, s.arg1), (0x018#16, s.arg2), (0x01C#16, s.arg3),
        (0x020#16, s.result.zeroExtend 32), (0x024#16, s.reslen), (0x028#16, s.crcAcc.zeroExtend 32),
        (0x030#16, s.addAcc.zeroExtend 32),
        (0x038#16, (hexU (s.addAcc.extractLsb' 0 4) ++ hexU (s.addAcc.extractLsb' 4 4) : BitVec 16).zeroExtend 32),
        (0x044#16, s.frKind.zeroExtend 32), (0x048#16, s.frAddr.zeroExtend 32), (0x04C#16, s.frFunc.zeroExtend 32),
        (0x050#16, s.frStart), (0x054#16, s.frLen), (0x058#16, s.frCksum.zeroExtend 32),
        (0x05C#16, s.cntOk), (0x060#16, s.cntCkerr), (0x064#16, s.cntTrunc),
        (0x068#16, s.cntMalf), (0x06C#16, s.cntRxovf), (0x070#16, s.cntOvr)] : List (Half × Word)),
      ∃ r, decode ⟨.read, .w32, p.1, d⟩ = .instr (.regRead r) ∧
        exec (.regRead r) s = .next { s with responses := s.responses ++ [.data p.2] }) ∧
    (∃ v, decode ⟨.read, .w32, 0x03C#16, d⟩ = .instr (.regRead .rxcount) ∧
      exec (.regRead .rxcount) s = .next { s with responses := s.responses ++ [.data v] } ∧
      (s.rxb.length < 2 ^ 32 → v.toNat = s.rxb.length)) ∧
    (∀ o : Half, 0x074 ≤ o.toNat → o.toNat < 0x100 → ∃ c, decode ⟨.read, .w32, o, d⟩ = .busError c)

/-- R291: a write to `CTRL` empties `RXB` exactly when it changes bits 2:0. -/
def Obligations.CtrlWriteDiscardsThePartialFrame : Prop :=
  ∀ (s : State) (v : Word),
    decode ⟨.write, .w32, 0x000#16, v⟩ = .instr (.ctrlWrite (v.extractLsb' 0 3)) ∧
    (v.extractLsb' 0 3 = s.ctrl →
      exec (.ctrlWrite (v.extractLsb' 0 3)) s = .next { s with responses := s.responses ++ [.ok] }) ∧
    (v.extractLsb' 0 3 ≠ s.ctrl →
      exec (.ctrlWrite (v.extractLsb' 0 3)) s = .next { s with
        ctrl := v.extractLsb' 0 3, rxb := [], responses := s.responses ++ [.ok] })

/-- R292: a write to `STATUS` clears the bits 1 to 6 written with 1, and no write touches bit 0. -/
def Obligations.StatusWriteClearsTheStickyBits : Prop :=
  ∀ (s : State) (v : Word),
    decode ⟨.write, .w32, 0x004#16, v⟩ = .instr (.statusW1c (v.extractLsb' 1 6)) ∧
    ∃ t : State, exec (.statusW1c (v.extractLsb' 1 6)) s = .next t ∧
      t = { s with status := t.status, responses := s.responses ++ [.ok] } ∧
      t.status.getLsbD 0 = s.status.getLsbD 0 ∧
      ∀ k, 1 ≤ k → k < 7 → t.status.getLsbD k = (s.status.getLsbD k && !v.getLsbD k)

/-- R293, R57: a write to `IRQ_EN` takes bits 6:0, and the interrupt output follows at once. -/
def Obligations.IrqEnableWriteDrivesTheOutput : Prop :=
  ∀ (s : State) (v : Word),
    decode ⟨.write, .w32, 0x008#16, v⟩ = .instr (.irqenWrite (v.extractLsb' 0 7)) ∧
    ∃ t : State, exec (.irqenWrite (v.extractLsb' 0 7)) s = .next t ∧
      t = { s with irqEn := v.extractLsb' 0 7, responses := s.responses ++ [.ok] } ∧
      (t.irq = true ↔ ∃ k, k < 7 ∧ s.status.getLsbD k = true ∧ v.getLsbD k = true)

/-- R57, R331: the interrupt output is 1 exactly while a bit is set in both `STATUS` and `IRQ_EN`; it has no state of
its own. That it is 0 after reset is the spec's own inference from R34 and R35. -/
def Obligations.InterruptIsTheOrOfEnabledStatusBits : Prop :=
  (∀ s : State, s.irq = true ↔ ∃ k, k < 7 ∧ s.status.getLsbD k = true ∧ s.irqEn.getLsbD k = true) ∧
  (∀ s t : State, t.status = s.status → t.irqEn = s.irqEn → t.irq = s.irq) ∧
  State.reset.irq = false

/-- R294: a write to `ARGn` stores all 32 bits and does nothing else. -/
def Obligations.ArgWriteStoresTheWord : Prop :=
  ∀ (s : State) (v : Word),
    (decode ⟨.write, .w32, 0x010#16, v⟩ = .instr (.argWrite .arg0 v) ∧
      exec (.argWrite .arg0 v) s = .next { s with arg0 := v, responses := s.responses ++ [.ok] }) ∧
    (decode ⟨.write, .w32, 0x014#16, v⟩ = .instr (.argWrite .arg1 v) ∧
      exec (.argWrite .arg1 v) s = .next { s with arg1 := v, responses := s.responses ++ [.ok] }) ∧
    (decode ⟨.write, .w32, 0x018#16, v⟩ = .instr (.argWrite .arg2 v) ∧
      exec (.argWrite .arg2 v) s = .next { s with arg2 := v, responses := s.responses ++ [.ok] }) ∧
    (decode ⟨.write, .w32, 0x01C#16, v⟩ = .instr (.argWrite .arg3 v) ∧
      exec (.argWrite .arg3 v) s = .next { s with arg3 := v, responses := s.responses ++ [.ok] })

/-- R296, R297: `NOP` writes `RESULT` and `RESLEN` only; `CNT_CLEAR` also clears the six counters and no sticky bit. -/
def Obligations.NopAndCounterClear : Prop :=
  ∀ s : State,
    exec .nop s = .next { s with result := 0#3, reslen := 0#32, responses := s.responses ++ [.ok] } ∧
    exec .cntClear s = .next { s with
      cntOk := 0#32, cntCkerr := 0#32, cntTrunc := 0#32, cntMalf := 0#32, cntRxovf := 0#32, cntOvr := 0#32,
      result := 0#3, reslen := 0#32, responses := s.responses ++ [.ok] }

/-- R86, R298: a buffer read returns its bytes little-endian with zeros above, and changes no state but the responses
(and the count of free bytes drawn, the model's own). -/
def Obligations.BufferReadIsLittleEndian : Prop :=
  ∀ (s : State) (b : Buffer) (i : BitVec 14) (w : Width) (a : Nat),
    a = (match b with | .src => 0x4000 | .tx => 0x8000 | .frp => 0xC000) + i.toNat → Readable s a w.bytes →
    ∃ (bs : List Byte) (d : Nat) (v : Word), SliceOf s a w.bytes bs ∧
      exec (.bufRead b i w) s = .next { s with responses := s.responses ++ [.data v], draws := d } ∧
      (Written s a w.bytes → d = s.draws) ∧
      (∀ k, k < w.bytes → bs[k]? = some (v.extractLsb' (8 * k) 8)) ∧ v.toNat < 256 ^ w.bytes

/-- R94, R328: a host read of an unwritten byte faults under `UNINIT_READ = fault`, and under `draw` returns the next
free byte, a new one for each read. -/
def Obligations.UnwrittenByteReadFaultsOrDraws : Prop :=
  ∀ (s : State) (b : Buffer) (i : BitVec 14) (a : Nat),
    a = (match b with | .src => 0x4000 | .tx => 0x8000 | .frp => 0xC000) + i.toNat → s.mem.read a = none →
    (s.cfg.uninitRead = .fault → exec (.bufRead b i .w8) s = .fault (.unwrittenByte a)) ∧
    (s.cfg.uninitRead = .draw → exec (.bufRead b i .w8) s = .next { s with
      responses := s.responses ++ [.data ((Config.freeByte s.draws).zeroExtend 32)], draws := s.draws + 1 })

/-- R86, R299: a write to `SRC` stores the data's bytes, lowest first, and no other byte of memory changes. -/
def Obligations.SrcWriteStoresTheBytes : Prop :=
  ∀ (s : State) (i : BitVec 14) (w : Width) (v : Word), ∃ t : State,
    exec (.srcWrite i w v) s = .next t ∧
    t = { s with mem := t.mem, responses := s.responses ++ [.ok] } ∧
    (∀ k, k < w.bytes → t.mem.read (0x4000 + i.toNat + k) = some (v.extractLsb' (8 * k) 8)) ∧
    SameMemOutside s t (0x4000 + i.toNat) w.bytes

/-- R88: no read has a side effect, and reading twice with nothing between returns the same value; for a buffer this
is said of written bytes (R94 lets an unwritten byte differ from read to read). -/
def Obligations.ReadsHaveNoSideEffect : Prop :=
  (∀ (s : State) (r : Reg), ∃ v, exec (.regRead r) s = .next { s with responses := s.responses ++ [.data v] } ∧
    exec (.regRead r) { s with responses := s.responses ++ [.data v] } =
      .next { s with responses := s.responses ++ [.data v] ++ [.data v] }) ∧
  (∀ (s t : State) (b : Buffer) (i : BitVec 14) (w : Width), exec (.bufRead b i w) s = .next t →
    t = { s with responses := t.responses, draws := t.draws }) ∧
  (∀ (s : State) (b : Buffer) (i : BitVec 14) (w : Width) (a : Nat),
    a = (match b with | .src => 0x4000 | .tx => 0x8000 | .frp => 0xC000) + i.toNat → Written s a w.bytes →
    ∃ v, exec (.bufRead b i w) s = .next { s with responses := s.responses ++ [.data v] } ∧
      exec (.bufRead b i w) { s with responses := s.responses ++ [.data v] } =
        .next { s with responses := s.responses ++ [.data v] ++ [.data v] })

/-! ## Failures -/

/-- R323, R300: a command whose argument check fails changes `RESULT`, `RESLEN` and `STATUS.CMDERR` only, whatever
`SRC` holds; no other command ends so. -/
def Obligations.BadArgumentsFailTheCommand : Prop :=
  ∀ (s t : State), t = { s with
      result := 6#3, reslen := 0#32, status := s.status ||| 0x40#7, responses := s.responses ++ [.ok] } →
    (16384 < s.arg3.toNat + s.arg2.toNat →
      exec .crcBuf s = .next t ∧ exec .addBuf s = .next t ∧ exec .decAscii s = .next t ∧
        exec .decAsciiLen s = .next t ∧ exec .decRtu s = .next t) ∧
    (9999 < s.arg2.toNat ∨ 16384 < s.arg3.toNat + s.arg2.toNat → exec .encAscii s = .next t) ∧
    (127 < (s.arg2.extractLsb' 0 16).toNat ∨ 16384 < s.arg3.toNat + 2 * (s.arg2.extractLsb' 0 16).toNat →
      exec .encRtuWr s = .next t) ∧
    (∀ (i : Instr) (u : State), i ∈ [.nop, .crcInit, .addInit, .encRtuRd, .syncReset, .frameAck, .cntClear] →
      exec i s = .next u → u.result = 0#3)

/-- R320, R328: an instruction faults exactly when `UNINIT_READ = fault` and it reads a buffer byte not written since
reset, and the fault names such a byte; no step is ever refused. -/
def Obligations.FaultExactlyOnAnUnwrittenByte : Prop :=
  (∀ (i : Instr) (s : State), (∃ f, exec i s = .fault f) ↔
    s.cfg.uninitRead = .fault ∧ ∃ a n, bytesRead i s = some (a, n) ∧ ¬ Written s a n) ∧
  (∀ (i : Instr) (s : State) (x : Nat), exec i s = .fault (.unwrittenByte x) →
    s.mem.read x = none ∧ ∃ a n, bytesRead i s = some (a, n) ∧ a ≤ x ∧ x < a + n) ∧
  (∀ (s : State) (f : Fault), step s = .fault f →
    ∃ (a : BusAccess) (rest : List HostAction) (i : Instr),
      NextAccess s a rest ∧ decode a = .instr i ∧ exec i { s with pending := rest } = .fault f) ∧
  (∀ (s : State) (r : Refusal), step s ≠ .refused r)

/-! ## Whole-machine rules -/

/-- R301, R31, R38: the registers that each operation can change; every other one is unchanged. R301 is the spec's own
inference from the rules of the operations. -/
def Obligations.OperationsChangeOnlyTheirRegisters : Prop :=
  ∀ (i : Instr) (s t : State), exec i s = .next t →
    ((∀ n v, i ≠ .argWrite n v) → t.arg0 = s.arg0 ∧ t.arg1 = s.arg1 ∧ t.arg2 = s.arg2 ∧ t.arg3 = s.arg3) ∧
    ((∀ v, i ≠ .ctrlWrite v) → t.ctrl = s.ctrl) ∧
    ((∀ v, i ≠ .irqenWrite v) → t.irqEn = s.irqEn) ∧
    (isCommand i = false → t.result = s.result ∧ t.reslen = s.reslen) ∧
    (i ≠ .crcInit → i ≠ .crcBuf → (∀ b, i ≠ .crcByte b) → t.crcAcc = s.crcAcc) ∧
    (i ≠ .addInit → i ≠ .addBuf → (∀ b, i ≠ .addByte b) → t.addAcc = s.addAcc) ∧
    (i ≠ .syncReset → (∀ b, i ≠ .syncPush b) → (∀ v, i ≠ .ctrlWrite v) → t.rxb = s.rxb) ∧
    (canDeliver i = false → t.frKind = s.frKind ∧ t.frAddr = s.frAddr ∧ t.frFunc = s.frFunc ∧
      t.frStart = s.frStart ∧ t.frLen = s.frLen ∧ t.frCksum = s.frCksum) ∧
    (canDeliver i = false → i ≠ .cntClear → t.cntOk = s.cntOk ∧ t.cntCkerr = s.cntCkerr ∧
      t.cntTrunc = s.cntTrunc ∧ t.cntMalf = s.cntMalf ∧ t.cntOvr = s.cntOvr) ∧
    ((∀ b, i ≠ .syncPush b) → i ≠ .cntClear → t.cntRxovf = s.cntRxovf) ∧
    (canDeliver i = false → i ≠ .frameAck → t.status.getLsbD 0 = s.status.getLsbD 0) ∧
    (canDeliver i = false → (∀ v, i ≠ .statusW1c v) →
      ∀ k, 1 ≤ k → k ≤ 4 → t.status.getLsbD k = s.status.getLsbD k) ∧
    ((∀ b, i ≠ .syncPush b) → (∀ v, i ≠ .statusW1c v) → t.status.getLsbD 5 = s.status.getLsbD 5) ∧
    (isCommand i = false → (∀ v, i ≠ .statusW1c v) → t.status.getLsbD 6 = s.status.getLsbD 6) ∧
    t.cfg = s.cfg ∧ t.pending = s.pending

/-- R93, R301, R54, R361: the buffer bytes that each operation can change: `SRC` only by a host write, `TX` only by an
encoder and only below `RESLEN`, `FRP` only by a delivery and only below `FR_LEN`. R301 is the spec's own
inference from the rules of the operations. -/
def Obligations.OperationsChangeOnlyTheirBuffers : Prop :=
  ∀ (i : Instr) (s t : State), i.wellFormed = true → exec i s = .next t →
    ∀ x : Nat, t.mem.read x ≠ s.mem.read x →
      (0x4000 ≤ x ∧ x < 0x8000 ∧
        ∃ j w v, i = .srcWrite j w v ∧ 0x4000 + j.toNat ≤ x ∧ x < 0x4000 + j.toNat + w.bytes) ∨
      (0x8000 ≤ x ∧ x < 0xC000 ∧ isEncoder i = true ∧ x < 0x8000 + t.reslen.toNat) ∨
      (0xC000 ≤ x ∧ x < 0x10000 ∧ canDeliver i = true ∧ x < 0xC000 + t.frLen.toNat)

/-- R5, R350: no step changes a parameter. -/
def Obligations.NoStepChangesAParameter : Prop :=
  ∀ s t : State, step s = .next t → t.cfg = s.cfg

/-- The invariant holds right after reset, for every legal choice of the parameters. -/
def Obligations.InvariantHoldsAfterReset : Prop :=
  State.reset.Inv ∧ ∀ (p : Params), p.Legal → { State.reset with cfg := p }.Inv

/-- R55, R47 to R52, R254: every step keeps the invariant, from every state that has it: the parameters stay legal,
memory keeps its canonical form, `RXB` fits its capacity and holds an unfinished frame of the current framing, and
the frame holding register holds the fields and the data of a frame of its kind. R55's invariants of `RXB` are the
spec's own inference from R252 to R254. -/
def Obligations.EveryStepKeepsTheInvariant : Prop :=
  ∀ s t : State, s.Inv → step s = .next t → t.Inv

/-- Two memories in canonical form from which every offset reads the same are the same list, so equal contents are
equal states. -/
def Obligations.CanonicalMemoriesAreEqualWhenTheyReadEqual : Prop :=
  ∀ m n : Memory, m.wf → n.wf → (∀ x, m.read x = n.read x) → m = n
end

