-- ==== Sys2Proof/Laws/Codec.lean ====
section
/-! SUPPORT. Facts about the codec functions: the marker searches, the numerals, and the pieces of byte strings. -/

namespace Sys2Proof.Machine

/-! The marker searches. -/

/-- A CR LF pair starts at index `k`. -/
abbrev TailAt (s : List Byte) (k : Nat) : Prop := s[k]? = some cr ∧ s[k + 1]? = some lf

/-- `findHeader` answers the least index of the marker. -/
theorem findHeader_eq_some {hdr : Byte} {s : List Byte} {h : Nat} :
    findHeader hdr s = some h ↔ s[h]? = some hdr ∧ ∀ j, j < h → s[j]? ≠ some hdr := by
  induction s generalizing h with
  | nil => simp [findHeader]
  | cons b s ih =>
    unfold findHeader
    by_cases hb : b = hdr
    · subst hb
      rw [if_pos rfl]
      constructor
      · rintro h; cases h; simp
      · rintro ⟨-, h2⟩
        cases h with
        | zero => rfl
        | succ h => exact absurd rfl (h2 0 (by omega))
    · rw [if_neg hb]
      cases h with
      | zero => simp [hb]
      | succ h =>
        simp only [Option.map_eq_some_iff, Nat.add_right_cancel_iff, exists_eq_right, ih, List.getElem?_cons_succ]
        refine and_congr_right fun _ => ⟨fun H j hj => ?_, fun H j hj => H (j + 1) (by omega)⟩
        cases j with
        | zero => simpa using hb
        | succ j => exact H j (by omega)

/-- `findHeader` finds nothing exactly when the marker is absent. -/
theorem findHeader_eq_none {hdr : Byte} {s : List Byte} : findHeader hdr s = none ↔ hdr ∉ s := by
  induction s with
  | nil => simp [findHeader]
  | cons b s ih =>
    unfold findHeader
    by_cases hb : b = hdr
    · simp [hb]
    · simp [hb, ih, eq_comm (a := hdr)]

/-- The head test of `findTail`, as a pair at index 0. -/
theorem tailAt_zero {b : Byte} {s : List Byte} : TailAt (b :: s) 0 ↔ b = cr ∧ s.head? = some lf := by
  simp [TailAt, List.head?_eq_getElem?]

/-- `findTail` answers the least index at which a pair starts. -/
theorem findTail_eq_some {s : List Byte} {k : Nat} :
    findTail s = some k ↔ TailAt s k ∧ ∀ j, j < k → ¬ TailAt s j := by
  induction s generalizing k with
  | nil => simp [findTail, TailAt]
  | cons b s ih =>
    unfold findTail
    by_cases hb : b = cr ∧ s.head? = some lf
    · rw [if_pos hb]
      constructor
      · rintro h; cases h; exact ⟨tailAt_zero.2 hb, fun j hj => absurd hj (Nat.not_lt_zero j)⟩
      · rintro ⟨-, h2⟩
        cases k with
        | zero => rfl
        | succ k => exact absurd (tailAt_zero.2 hb) (h2 0 (by omega))
    · rw [if_neg hb]
      cases k with
      | zero => exact ⟨fun h => by simp at h, fun h => absurd (tailAt_zero.1 h.1) hb⟩
      | succ k =>
        simp only [Option.map_eq_some_iff, Nat.add_right_cancel_iff, exists_eq_right, ih]
        refine and_congr (by simp [TailAt]) ⟨fun H j hj => ?_, fun H j hj => ?_⟩
        · cases j with
          | zero => exact mt tailAt_zero.1 hb
          | succ j => simpa [TailAt] using H j (by omega)
        · simpa [TailAt] using H (j + 1) (by omega)

/-- `findTail` finds nothing exactly when no pair stands in the string. -/
theorem findTail_eq_none {s : List Byte} : findTail s = none ↔ ∀ k, ¬ TailAt s k := by
  induction s with
  | nil => simp [findTail, TailAt]
  | cons b s ih =>
    unfold findTail
    by_cases hb : b = cr ∧ s.head? = some lf
    · rw [if_pos hb]
      simp only [reduceCtorEq, false_iff, not_forall, not_not]
      exact ⟨0, tailAt_zero.2 hb⟩
    · rw [if_neg hb, Option.map_eq_none_iff, ih]
      refine ⟨fun H k => ?_, fun H k => by simpa [TailAt] using H (k + 1)⟩
      cases k with
      | zero => exact mt tailAt_zero.1 hb
      | succ k => simpa [TailAt] using H k

/-! Byte strings. -/

/-- `byteAt` inside a string. -/
theorem byteAt_eq {s : List Byte} {i : Nat} {b : Byte} (h : s[i]? = some b) : byteAt s i = b := by
  simp [byteAt, List.getD_eq_getElem?_getD, h]

/-- The byte `byteAt` names, inside the string. -/
theorem getElem?_eq_byteAt {s : List Byte} {i : Nat} (h : i < s.length) : s[i]? = some (byteAt s i) := by
  simp [byteAt, List.getD_eq_getElem?_getD, h]

@[simp] theorem byteAt_cons_zero (b : Byte) (s : List Byte) : byteAt (b :: s) 0 = b := rfl

@[simp] theorem byteAt_cons_succ (b : Byte) (s : List Byte) (i : Nat) : byteAt (b :: s) (i + 1) = byteAt s i := rfl

/-- `byteAt` in the left part of a concatenation. -/
theorem byteAt_append_left {s t : List Byte} {i : Nat} (h : i < s.length) : byteAt (s ++ t) i = byteAt s i := by
  simp [byteAt, List.getD_eq_getElem?_getD, List.getElem?_append_left h]

/-- `byteAt` in the right part of a concatenation. -/
theorem byteAt_append_right {s t : List Byte} {i : Nat} (h : s.length ≤ i) :
    byteAt (s ++ t) i = byteAt t (i - s.length) := by
  simp [byteAt, List.getD_eq_getElem?_getD, List.getElem?_append_right h]

/-- The length of a slice inside a string. -/
theorem length_slice {s : List Byte} {a b : Nat} (h : b ≤ s.length) : (slice s a b).length = b - a := by
  simp only [slice, List.length_take, List.length_drop]; omega

/-- A prefix as a slice. -/
theorem slice_zero (s : List Byte) (b : Nat) : slice s 0 b = s.take b := by simp [slice]

/-- The middle part of a concatenation. -/
theorem slice_append (s t u : List Byte) : slice (s ++ (t ++ u)) s.length (s.length + t.length) = t := by
  simp [slice]

/-- `byteAt` of a dropped string. -/
theorem byteAt_drop (s : List Byte) (n i : Nat) : byteAt (s.drop n) i = byteAt s (n + i) := by
  simp [byteAt, List.getD_eq_getElem?_getD]

/-- `byteAt` of a cut string. -/
theorem byteAt_take {s : List Byte} {n i : Nat} (h : i < n) : byteAt (s.take n) i = byteAt s i := by
  simp [byteAt, List.getD_eq_getElem?_getD, h]

/-- The two bytes after a string. -/
theorem byteAt_append_pair (s : List Byte) (c1 c0 : Byte) :
    byteAt (s ++ [c1, c0]) s.length = c1 ∧ byteAt (s ++ [c1, c0]) (s.length + 1) = c0 := by
  simp [byteAt_append_right]

/-- The string before the two last bytes. -/
theorem slice_append_pair (s : List Byte) (c1 c0 : Byte) : slice (s ++ [c1, c0]) 0 s.length = s := by
  simp [slice]

/-! Numerals. -/

/-- The digit of a number below 10 is a decimal digit with that value. -/
theorem decDigit_spec {n : Nat} (h : n < 10) : isDec (decDigit n) = true ∧ decVal (decDigit n) = n := by
  have : ∀ m : Fin 10, isDec (decDigit m.val) = true ∧ decVal (decDigit m.val) = m.val := by decide
  exact this ⟨n, h⟩

/-- A decimal digit is the digit of its value, which is below 10. -/
theorem decDigit_decVal {c : Byte} (h : isDec c = true) : decVal c < 10 ∧ decDigit (decVal c) = c := by
  have hc := c.isLt
  simp only [isDec, Bool.and_eq_true, decide_eq_true_eq, BitVec.le_def] at h
  have h1 : decVal c = c.toNat - 48 := by simp only [decVal, BitVec.toNat_sub]; simp at h ⊢; omega
  refine ⟨by simp at h; omega, ?_⟩
  apply BitVec.eq_of_toNat_eq
  simp [decDigit, h1] at h ⊢; omega

/-- The four digits of a length have it as their value. -/
theorem dec4Val_digits {L : Nat} (h : L < 10000) :
    dec4Val (decDigit (L / 1000 % 10)) (decDigit (L / 100 % 10)) (decDigit (L / 10 % 10)) (decDigit (L % 10)) = L := by
  have h0 := (decDigit_spec (n := L / 1000 % 10) (by omega)).2
  have h1 := (decDigit_spec (n := L / 100 % 10) (by omega)).2
  have h2 := (decDigit_spec (n := L / 10 % 10) (by omega)).2
  have h3 := (decDigit_spec (n := L % 10) (by omega)).2
  simp only [dec4Val, h0, h1, h2, h3]
  omega

/-- Four decimal digits are the digits of their value, which is at most 9999. -/
theorem dec4_dec4Val {c0 c1 c2 c3 : Byte} (h0 : isDec c0 = true) (h1 : isDec c1 = true) (h2 : isDec c2 = true)
    (h3 : isDec c3 = true) : dec4Val c0 c1 c2 c3 ≤ 9999 ∧ dec4 (dec4Val c0 c1 c2 c3) = [c0, c1, c2, c3] := by
  obtain ⟨b0, e0⟩ := decDigit_decVal h0
  obtain ⟨b1, e1⟩ := decDigit_decVal h1
  obtain ⟨b2, e2⟩ := decDigit_decVal h2
  obtain ⟨b3, e3⟩ := decDigit_decVal h3
  refine ⟨by simp only [dec4Val]; omega, ?_⟩
  have q0 : dec4Val c0 c1 c2 c3 / 1000 % 10 = decVal c0 := by simp only [dec4Val]; omega
  have q1 : dec4Val c0 c1 c2 c3 / 100 % 10 = decVal c1 := by simp only [dec4Val]; omega
  have q2 : dec4Val c0 c1 c2 c3 / 10 % 10 = decVal c2 := by simp only [dec4Val]; omega
  have q3 : dec4Val c0 c1 c2 c3 % 10 = decVal c3 := by simp only [dec4Val]; omega
  simp only [dec4, q0, q1, q2, q3, e0, e1, e2, e3]

@[simp] theorem length_dec4 (L : Nat) : (dec4 L).length = 4 := rfl

@[simp] theorem length_hex2 (x : Byte) : (hex2 x).length = 2 := rfl

/-- The two digits of a byte are hexadecimal, uppercase, and have it as their value. -/
theorem hex2_spec (x : Byte) :
    isHex (hexU (x.extractLsb' 4 4)) = true ∧ isHex (hexU (x.extractLsb' 0 4)) = true ∧
      16#8 * hexVal (hexU (x.extractLsb' 4 4)) + hexVal (hexU (x.extractLsb' 0 4)) = x := by
  have h : ∀ d : BitVec 4, isHex (hexU d) = true ∧ hexVal (hexU d) = d.setWidth 8 := by decide
  refine ⟨(h _).1, (h _).1, ?_⟩
  rw [(h _).2, (h _).2]
  apply BitVec.eq_of_toNat_eq
  have := x.isLt
  simp only [BitVec.toNat_add, BitVec.toNat_mul, BitVec.toNat_setWidth, BitVec.extractLsb'_toNat,
    Nat.shiftRight_eq_div_pow]
  simp
  omega

/-! The frame decoders. -/

/-- Everything that a frame result of `DecodeBody` says of the body (R183 steps 1 to 7). -/
theorem decodeBody_frame {body : List Byte} {r : FrameRec} (h : decodeBody body = .frame r) :
    isHex (byteAt body (body.length - 2)) = true ∧ isHex (byteAt body (body.length - 1)) = true ∧
      additive8 (slice body 0 (body.length - 2)) = bodyChecksum body ∧ isDec4 body 8 = true ∧
      body.length = dec4At body 8 + 14 ∧ r = asciiRecord body (dec4At body 8) (bodyChecksum body) := by
  simp only [decodeBody] at h
  split at h
  · cases h
  split at h
  · cases h
  split at h
  · cases h
  split at h
  · cases h
  split at h
  · cases h
  split at h
  · cases h
  split at h
  · cases h
  cases h
  simp_all
  omega

/-- A body that passes the checks of `DecodeBody` gives a frame. -/
theorem decodeBody_of_checks {body : List Byte} (h1 : isHex (byteAt body (body.length - 2)) = true)
    (h0 : isHex (byteAt body (body.length - 1)) = true)
    (hs : additive8 (slice body 0 (body.length - 2)) = bodyChecksum body)
    (hd : isDec4 body 8 = true) (hl : body.length = dec4At body 8 + 14) :
    decodeBody body = .frame (asciiRecord body (dec4At body 8) (bodyChecksum body)) := by
  simp only [decodeBody, h1, h0, hs, hd]
  simp only [Bool.and_self, Bool.not_true, Bool.false_eq_true, if_false, ne_eq, not_true_eq_false]
  rw [if_neg (by omega), if_neg (by omega), if_neg (by omega), if_neg (by omega)]

/-- The declared length of four decimal digits is at most 9999. -/
theorem dec4At_le {s : List Byte} {i : Nat} (h : isDec4 s i = true) : dec4At s i ≤ 9999 := by
  simp only [isDec4, Bool.and_eq_true] at h
  exact (dec4_dec4Val h.1.1.1 h.1.1.2 h.1.2 h.2).1

/-- The data of an accepted ASCII body has the declared length (R183 step 7). -/
theorem decodeBody_data {body : List Byte} {r : FrameRec} (h : decodeBody body = .frame r) :
    r.kind = .ascii ∧ ∃ d, r.data = some d ∧ d.length = r.len.toNat ∧ d.length ≤ 9999 := by
  obtain ⟨-, -, -, hd, hl, rfl⟩ := decodeBody_frame h
  have hL := dec4At_le hd
  refine ⟨rfl, _, rfl, ?_, ?_⟩
  · rw [length_slice (by omega)]
    simp only [asciiRecord, BitVec.toNat_ofNat]
    omega
  · rw [length_slice (by omega)]; omega

/-- Everything that a frame result of `DecodeRTU` says of the frame (R224). -/
theorem decodeRtu_frame {fr : List Byte} {r : FrameRec} (h : decodeRtu fr = .frame r) :
    4 ≤ fr.length ∧ crc16Modbus (slice fr 0 (fr.length - 2)) = receivedCrc fr ∧
      ((byteAt fr 1 = funcRead ∧ fr.length = 5 + (byteAt fr 2).toNat ∧
        r = { kind := .rtuRead, addr := (byteAt fr 0).setWidth 16, func := funcRead.setWidth 16, start := 0#32,
              len := BitVec.ofNat 32 (byteAt fr 2).toNat, ck := receivedCrc fr,
              data := some (slice fr 3 (3 + (byteAt fr 2).toNat)) }) ∨
       (byteAt fr 1 = funcWrite ∧ fr.length = 8 ∧
        r = { kind := .rtuWrite, addr := (byteAt fr 0).setWidth 16, func := funcWrite.setWidth 16,
              start := (pack2 (byteAt fr 3) (byteAt fr 2)).setWidth 32,
              len := (pack2 (byteAt fr 5) (byteAt fr 4)).setWidth 32, ck := receivedCrc fr, data := none })) := by
  simp only [decodeRtu] at h
  split at h
  · cases h
  split at h
  · cases h
  next h4 hc =>
  refine ⟨by omega, by simpa using hc, ?_⟩
  split at h
  · next hf =>
    simp only [decodeRtuRead] at h
    split at h
    · cases h
    split at h
    · cases h
    split at h
    · cases h
    cases h
    exact .inl ⟨hf, by omega, rfl⟩
  · split at h
    · next hf =>
      simp only [decodeRtuWrite] at h
      split at h
      · cases h
      split at h
      · cases h
      cases h
      exact .inr ⟨hf, by omega, rfl⟩
    · cases h

/-! Lengths of the encoders' frames. -/

/-- An ASCII frame has 17 bytes more than its payload (R116). -/
theorem length_encodeAscii {hdr : Byte} {a f st p : List Byte} (ha : a.length = 2) (hf : f.length = 2)
    (hs : st.length = 4) : (encodeAscii hdr a f st p).length = p.length + 17 := by
  simp [encodeAscii, asciiInner, ha, hf, hs]; omega

@[simp] theorem length_withCrc (f : List Byte) : (withCrc f).length = f.length + 2 := by simp [withCrc, le16]

/-- A read request has 8 bytes (R118). -/
@[simp] theorem length_encodeRtuRead (addr : Byte) (start cnt : Half) : (encodeRtuRead addr start cnt).length = 8 := by
  simp [encodeRtuRead, be16]

/-- A write request has 9 bytes more than its data (R120). -/
theorem length_encodeRtuWrite (addr : Byte) (start cnt : Half) (data : List Byte) :
    (encodeRtuWrite addr start cnt data).length = data.length + 9 := by
  simp [encodeRtuWrite, be16]

end Sys2Proof.Machine
end

