-- ==== Sys2Proof/Laws/Decode.lean ====
section
/-! SUPPORT. Small facts about the decoder and the encoder: each register is found at its own offset, each opcode at its
own row, and the fields of a buffer offset are what was put there. -/

namespace Sys2Proof

/-- The register file has no two registers at one offset: each is found at its own. -/
theorem regAt_offset (r : Reg) : regAt r.offset = some r := by cases r <;> decide

/-- The register found at an offset has that offset. -/
theorem offset_of_regAt {o : Half} {r : Reg} (h : regAt o = some r) : r.offset = o := by
  simpa using List.find?_some h

/-- Register offsets are aligned and lie below the reserved ones. -/
theorem Reg.offset_range (r : Reg) : r.offset.toNat % 4 = 0 ∧ r.offset.toNat < 0x74 := by cases r <;> decide

/-- A reserved offset of the register region has no register. -/
theorem regAt_eq_none {o : Half} (h : 0x74 ≤ o.toNat) : regAt o = none := by
  cases hr : regAt o with
  | none => rfl
  | some r => have := offset_of_regAt hr; have := r.offset_range; subst o; omega

/-- A 32-bit write at a register's offset. -/
theorem decode_register_write (r : Reg) (v : Word) :
    decode ⟨.write, .w32, r.offset, v⟩ = decodeRegWrite r v := by
  have h := r.offset_range
  simp [decode, decodeRegister, regAt_offset, h.1, show r.offset.toNat < 256 by omega]

/-- A 32-bit read at a register's offset. -/
theorem decode_register_read (r : Reg) (v : Word) :
    decode ⟨.read, .w32, r.offset, v⟩ = .instr (.regRead r) := by
  have h := r.offset_range
  simp [decode, decodeRegister, regAt_offset, h.1, show r.offset.toNat < 256 by omega]

/-- Every opcode has one row. -/
theorem decodeCommand_of_row {row : Byte × Instr} (h : row ∈ opcodeMap) : decodeCommand row.1 = .instr row.2 := by
  simp only [opcodeMap, List.mem_cons, List.not_mem_nil, or_false] at h
  rcases h with rfl | rfl | rfl | rfl | rfl | rfl | rfl | rfl | rfl | rfl | rfl | rfl | rfl | rfl <;> rfl

/-- A command that the decoder finds stands in its row of the opcode map. -/
theorem row_of_decodeCommand {op : Byte} {i : Instr} (h : decodeCommand op = .instr i) : (op, i) ∈ opcodeMap := by
  unfold decodeCommand at h
  split at h
  · next row hrow =>
    cases h
    have h1 := List.find?_some hrow
    simp only [beq_iff_eq] at h1
    subst h1
    exact List.mem_of_find?_eq_some hrow
  · cases h

/-- A command write of an opcode decodes to what the opcode names, whatever its bits 31:8. -/
theorem decode_commandWrite (op : Byte) : decode (commandWrite op) = decodeCommand op := by
  rw [commandWrite, decode_register_write]
  simp only [decodeRegWrite]
  congr 1
  apply BitVec.eq_of_toNat_eq
  have := op.isLt
  simp only [BitVec.extractLsb'_toNat, BitVec.toNat_setWidth, Nat.shiftRight_zero]
  omega

/-- A buffer offset as a number. -/
theorem Buffer.offset_toNat (b : Buffer) (i : BitVec 14) :
    (b.offset i).toNat = b.select.toNat * 0x4000 + i.toNat := by
  have := i.isLt
  simp only [Buffer.offset, BitVec.toNat_append, Nat.shiftLeft_eq]
  rw [Nat.mul_comm, ← Nat.two_pow_add_eq_or_of_lt i.isLt]

/-- Offset bits 15:14 of a buffer offset. -/
@[simp] theorem Buffer.offset_select (b : Buffer) (i : BitVec 14) : (b.offset i).extractLsb' 14 2 = b.select := by
  apply BitVec.eq_of_toNat_eq
  have hi := i.isLt
  have hb := b.select.isLt
  simp only [BitVec.extractLsb'_toNat, Buffer.offset_toNat, Nat.shiftRight_eq_div_pow]
  omega

/-- Offset bits 13:0 of a buffer offset. -/
@[simp] theorem Buffer.offset_index (b : Buffer) (i : BitVec 14) : (b.offset i).extractLsb' 0 14 = i := by
  apply BitVec.eq_of_toNat_eq
  have hi := i.isLt
  simp only [BitVec.extractLsb'_toNat, Buffer.offset_toNat, Nat.shiftRight_zero]
  omega

/-- The buffer at its own offsets. -/
@[simp] theorem bufferAt_offset (b : Buffer) (i : BitVec 14) : bufferAt (b.offset i) = some b := by
  simp only [bufferAt, Buffer.offset_select]
  cases b <;> rfl

/-- An offset is the offset of its own two fields. -/
theorem offset_of_bufferAt {o : Half} {b : Buffer} (h : bufferAt o = some b) :
    b.offset (o.extractLsb' 0 14) = o := by
  have hs : b.select.toNat = (o.extractLsb' 14 2).toNat := by
    unfold bufferAt at h
    split at h <;> first | (next e => cases h; rw [e]; rfl) | cases h
  apply BitVec.eq_of_toNat_eq
  have ho := o.isLt
  rw [Buffer.offset_toNat, hs]
  simp only [BitVec.extractLsb'_toNat, Nat.shiftRight_eq_div_pow]
  omega

/-- The windows are 16 KiB aligned, so an offset is aligned exactly when its index is. -/
theorem aligned_offset (w : Width) (b : Buffer) (i : BitVec 14) :
    w.aligned (b.offset i).toNat = w.aligned i.toNat := by
  rw [Buffer.offset_toNat]
  simp only [Width.aligned]
  congr 1
  cases w <;> simp [Width.bytes] <;> omega

/-- Buffer offsets lie above the register region. -/
theorem Buffer.offset_ge (b : Buffer) (i : BitVec 14) : 0x4000 ≤ (b.offset i).toNat := by
  rw [Buffer.offset_toNat]; cases b <;> simp [Buffer.select] <;> omega

/-- An access to a buffer offset. -/
theorem decode_buffer (d : Dir) (w : Width) (b : Buffer) (i : BitVec 14) (v : Word) :
    decode ⟨d, w, b.offset i, v⟩ =
      if w.aligned i.toNat then decodeBufferAccess b ⟨d, w, b.offset i, v⟩ else .busError .misalignedBuffer := by
  have h := b.offset_ge i
  unfold decode
  rw [if_neg (by simp only; omega)]
  simp only [bufferAt_offset, aligned_offset]

/-- A data word that fits its width is not changed by taking the width's bytes. -/
theorem Width.truncate_of_fits {w : Width} {v : Word} (h : w.fits v = true) : w.truncate v = v := by
  simp only [Width.fits, decide_eq_true_eq] at h
  cases w
  · apply BitVec.eq_of_toNat_eq; simp [Width.truncate, Width.bytes] at *; omega
  · apply BitVec.eq_of_toNat_eq; simp [Width.truncate, Width.bytes] at *; omega
  · rfl

/-- Taking a width's bytes gives a word that fits the width. -/
theorem Width.fits_truncate (w : Width) (v : Word) : w.fits (w.truncate v) = true := by
  have := v.isLt
  simp only [Width.fits, decide_eq_true_eq]
  cases w <;> simp [Width.truncate, Width.bytes] <;> omega

end Sys2Proof
end

