-- ==== Sys2Proof/Laws/State.lean ====
section
/-! SUPPORT. What each shared update of the state does to each field, so that no proof unfolds a record update. -/

namespace Sys2Proof.Machine

variable (s : State)

/-! `State.respond`. -/

@[simp] theorem respond_cfg (r : Response) : (s.respond r).cfg = s.cfg := rfl
@[simp] theorem respond_ctrl (r : Response) : (s.respond r).ctrl = s.ctrl := rfl
@[simp] theorem respond_status (r : Response) : (s.respond r).status = s.status := rfl
@[simp] theorem respond_irqEn (r : Response) : (s.respond r).irqEn = s.irqEn := rfl
@[simp] theorem respond_arg0 (r : Response) : (s.respond r).arg0 = s.arg0 := rfl
@[simp] theorem respond_arg1 (r : Response) : (s.respond r).arg1 = s.arg1 := rfl
@[simp] theorem respond_arg2 (r : Response) : (s.respond r).arg2 = s.arg2 := rfl
@[simp] theorem respond_arg3 (r : Response) : (s.respond r).arg3 = s.arg3 := rfl
@[simp] theorem respond_result (r : Response) : (s.respond r).result = s.result := rfl
@[simp] theorem respond_reslen (r : Response) : (s.respond r).reslen = s.reslen := rfl
@[simp] theorem respond_crcAcc (r : Response) : (s.respond r).crcAcc = s.crcAcc := rfl
@[simp] theorem respond_addAcc (r : Response) : (s.respond r).addAcc = s.addAcc := rfl
@[simp] theorem respond_rxb (r : Response) : (s.respond r).rxb = s.rxb := rfl
@[simp] theorem respond_frKind (r : Response) : (s.respond r).frKind = s.frKind := rfl
@[simp] theorem respond_frAddr (r : Response) : (s.respond r).frAddr = s.frAddr := rfl
@[simp] theorem respond_frFunc (r : Response) : (s.respond r).frFunc = s.frFunc := rfl
@[simp] theorem respond_frStart (r : Response) : (s.respond r).frStart = s.frStart := rfl
@[simp] theorem respond_frLen (r : Response) : (s.respond r).frLen = s.frLen := rfl
@[simp] theorem respond_frCksum (r : Response) : (s.respond r).frCksum = s.frCksum := rfl
@[simp] theorem respond_cntOk (r : Response) : (s.respond r).cntOk = s.cntOk := rfl
@[simp] theorem respond_cntCkerr (r : Response) : (s.respond r).cntCkerr = s.cntCkerr := rfl
@[simp] theorem respond_cntTrunc (r : Response) : (s.respond r).cntTrunc = s.cntTrunc := rfl
@[simp] theorem respond_cntMalf (r : Response) : (s.respond r).cntMalf = s.cntMalf := rfl
@[simp] theorem respond_cntRxovf (r : Response) : (s.respond r).cntRxovf = s.cntRxovf := rfl
@[simp] theorem respond_cntOvr (r : Response) : (s.respond r).cntOvr = s.cntOvr := rfl
@[simp] theorem respond_mem (r : Response) : (s.respond r).mem = s.mem := rfl
@[simp] theorem respond_pending (r : Response) : (s.respond r).pending = s.pending := rfl
@[simp] theorem respond_responses (r : Response) : (s.respond r).responses = s.responses ++ [r] := rfl
@[simp] theorem respond_draws (r : Response) : (s.respond r).draws = s.draws := rfl

/-! `State.setStatus`. -/

@[simp] theorem setStatus_cfg (m : BitVec 7) : (s.setStatus m).cfg = s.cfg := rfl
@[simp] theorem setStatus_ctrl (m : BitVec 7) : (s.setStatus m).ctrl = s.ctrl := rfl
@[simp] theorem setStatus_status (m : BitVec 7) : (s.setStatus m).status = s.status ||| m := rfl
@[simp] theorem setStatus_irqEn (m : BitVec 7) : (s.setStatus m).irqEn = s.irqEn := rfl
@[simp] theorem setStatus_arg0 (m : BitVec 7) : (s.setStatus m).arg0 = s.arg0 := rfl
@[simp] theorem setStatus_arg1 (m : BitVec 7) : (s.setStatus m).arg1 = s.arg1 := rfl
@[simp] theorem setStatus_arg2 (m : BitVec 7) : (s.setStatus m).arg2 = s.arg2 := rfl
@[simp] theorem setStatus_arg3 (m : BitVec 7) : (s.setStatus m).arg3 = s.arg3 := rfl
@[simp] theorem setStatus_result (m : BitVec 7) : (s.setStatus m).result = s.result := rfl
@[simp] theorem setStatus_reslen (m : BitVec 7) : (s.setStatus m).reslen = s.reslen := rfl
@[simp] theorem setStatus_crcAcc (m : BitVec 7) : (s.setStatus m).crcAcc = s.crcAcc := rfl
@[simp] theorem setStatus_addAcc (m : BitVec 7) : (s.setStatus m).addAcc = s.addAcc := rfl
@[simp] theorem setStatus_rxb (m : BitVec 7) : (s.setStatus m).rxb = s.rxb := rfl
@[simp] theorem setStatus_frKind (m : BitVec 7) : (s.setStatus m).frKind = s.frKind := rfl
@[simp] theorem setStatus_frAddr (m : BitVec 7) : (s.setStatus m).frAddr = s.frAddr := rfl
@[simp] theorem setStatus_frFunc (m : BitVec 7) : (s.setStatus m).frFunc = s.frFunc := rfl
@[simp] theorem setStatus_frStart (m : BitVec 7) : (s.setStatus m).frStart = s.frStart := rfl
@[simp] theorem setStatus_frLen (m : BitVec 7) : (s.setStatus m).frLen = s.frLen := rfl
@[simp] theorem setStatus_frCksum (m : BitVec 7) : (s.setStatus m).frCksum = s.frCksum := rfl
@[simp] theorem setStatus_cntOk (m : BitVec 7) : (s.setStatus m).cntOk = s.cntOk := rfl
@[simp] theorem setStatus_cntCkerr (m : BitVec 7) : (s.setStatus m).cntCkerr = s.cntCkerr := rfl
@[simp] theorem setStatus_cntTrunc (m : BitVec 7) : (s.setStatus m).cntTrunc = s.cntTrunc := rfl
@[simp] theorem setStatus_cntMalf (m : BitVec 7) : (s.setStatus m).cntMalf = s.cntMalf := rfl
@[simp] theorem setStatus_cntRxovf (m : BitVec 7) : (s.setStatus m).cntRxovf = s.cntRxovf := rfl
@[simp] theorem setStatus_cntOvr (m : BitVec 7) : (s.setStatus m).cntOvr = s.cntOvr := rfl
@[simp] theorem setStatus_mem (m : BitVec 7) : (s.setStatus m).mem = s.mem := rfl
@[simp] theorem setStatus_pending (m : BitVec 7) : (s.setStatus m).pending = s.pending := rfl
@[simp] theorem setStatus_responses (m : BitVec 7) : (s.setStatus m).responses = s.responses := rfl
@[simp] theorem setStatus_draws (m : BitVec 7) : (s.setStatus m).draws = s.draws := rfl

/-! `State.clearStatus`. -/

@[simp] theorem clearStatus_cfg (m : BitVec 7) : (s.clearStatus m).cfg = s.cfg := rfl
@[simp] theorem clearStatus_ctrl (m : BitVec 7) : (s.clearStatus m).ctrl = s.ctrl := rfl
@[simp] theorem clearStatus_status (m : BitVec 7) : (s.clearStatus m).status = s.status &&& ~~~m := rfl
@[simp] theorem clearStatus_irqEn (m : BitVec 7) : (s.clearStatus m).irqEn = s.irqEn := rfl
@[simp] theorem clearStatus_arg0 (m : BitVec 7) : (s.clearStatus m).arg0 = s.arg0 := rfl
@[simp] theorem clearStatus_arg1 (m : BitVec 7) : (s.clearStatus m).arg1 = s.arg1 := rfl
@[simp] theorem clearStatus_arg2 (m : BitVec 7) : (s.clearStatus m).arg2 = s.arg2 := rfl
@[simp] theorem clearStatus_arg3 (m : BitVec 7) : (s.clearStatus m).arg3 = s.arg3 := rfl
@[simp] theorem clearStatus_result (m : BitVec 7) : (s.clearStatus m).result = s.result := rfl
@[simp] theorem clearStatus_reslen (m : BitVec 7) : (s.clearStatus m).reslen = s.reslen := rfl
@[simp] theorem clearStatus_crcAcc (m : BitVec 7) : (s.clearStatus m).crcAcc = s.crcAcc := rfl
@[simp] theorem clearStatus_addAcc (m : BitVec 7) : (s.clearStatus m).addAcc = s.addAcc := rfl
@[simp] theorem clearStatus_rxb (m : BitVec 7) : (s.clearStatus m).rxb = s.rxb := rfl
@[simp] theorem clearStatus_frKind (m : BitVec 7) : (s.clearStatus m).frKind = s.frKind := rfl
@[simp] theorem clearStatus_frAddr (m : BitVec 7) : (s.clearStatus m).frAddr = s.frAddr := rfl
@[simp] theorem clearStatus_frFunc (m : BitVec 7) : (s.clearStatus m).frFunc = s.frFunc := rfl
@[simp] theorem clearStatus_frStart (m : BitVec 7) : (s.clearStatus m).frStart = s.frStart := rfl
@[simp] theorem clearStatus_frLen (m : BitVec 7) : (s.clearStatus m).frLen = s.frLen := rfl
@[simp] theorem clearStatus_frCksum (m : BitVec 7) : (s.clearStatus m).frCksum = s.frCksum := rfl
@[simp] theorem clearStatus_cntOk (m : BitVec 7) : (s.clearStatus m).cntOk = s.cntOk := rfl
@[simp] theorem clearStatus_cntCkerr (m : BitVec 7) : (s.clearStatus m).cntCkerr = s.cntCkerr := rfl
@[simp] theorem clearStatus_cntTrunc (m : BitVec 7) : (s.clearStatus m).cntTrunc = s.cntTrunc := rfl
@[simp] theorem clearStatus_cntMalf (m : BitVec 7) : (s.clearStatus m).cntMalf = s.cntMalf := rfl
@[simp] theorem clearStatus_cntRxovf (m : BitVec 7) : (s.clearStatus m).cntRxovf = s.cntRxovf := rfl
@[simp] theorem clearStatus_cntOvr (m : BitVec 7) : (s.clearStatus m).cntOvr = s.cntOvr := rfl
@[simp] theorem clearStatus_mem (m : BitVec 7) : (s.clearStatus m).mem = s.mem := rfl
@[simp] theorem clearStatus_pending (m : BitVec 7) : (s.clearStatus m).pending = s.pending := rfl
@[simp] theorem clearStatus_responses (m : BitVec 7) : (s.clearStatus m).responses = s.responses := rfl
@[simp] theorem clearStatus_draws (m : BitVec 7) : (s.clearStatus m).draws = s.draws := rfl

/-! `State.writeBuf`. -/

@[simp] theorem writeBuf_cfg (b : Buffer) (i : Nat) (bs : List Byte) : (s.writeBuf b i bs).cfg = s.cfg := rfl
@[simp] theorem writeBuf_ctrl (b : Buffer) (i : Nat) (bs : List Byte) : (s.writeBuf b i bs).ctrl = s.ctrl := rfl
@[simp] theorem writeBuf_status (b : Buffer) (i : Nat) (bs : List Byte) : (s.writeBuf b i bs).status = s.status := rfl
@[simp] theorem writeBuf_irqEn (b : Buffer) (i : Nat) (bs : List Byte) : (s.writeBuf b i bs).irqEn = s.irqEn := rfl
@[simp] theorem writeBuf_arg0 (b : Buffer) (i : Nat) (bs : List Byte) : (s.writeBuf b i bs).arg0 = s.arg0 := rfl
@[simp] theorem writeBuf_arg1 (b : Buffer) (i : Nat) (bs : List Byte) : (s.writeBuf b i bs).arg1 = s.arg1 := rfl
@[simp] theorem writeBuf_arg2 (b : Buffer) (i : Nat) (bs : List Byte) : (s.writeBuf b i bs).arg2 = s.arg2 := rfl
@[simp] theorem writeBuf_arg3 (b : Buffer) (i : Nat) (bs : List Byte) : (s.writeBuf b i bs).arg3 = s.arg3 := rfl
@[simp] theorem writeBuf_result (b : Buffer) (i : Nat) (bs : List Byte) : (s.writeBuf b i bs).result = s.result := rfl
@[simp] theorem writeBuf_reslen (b : Buffer) (i : Nat) (bs : List Byte) : (s.writeBuf b i bs).reslen = s.reslen := rfl
@[simp] theorem writeBuf_crcAcc (b : Buffer) (i : Nat) (bs : List Byte) : (s.writeBuf b i bs).crcAcc = s.crcAcc := rfl
@[simp] theorem writeBuf_addAcc (b : Buffer) (i : Nat) (bs : List Byte) : (s.writeBuf b i bs).addAcc = s.addAcc := rfl
@[simp] theorem writeBuf_rxb (b : Buffer) (i : Nat) (bs : List Byte) : (s.writeBuf b i bs).rxb = s.rxb := rfl
@[simp] theorem writeBuf_frKind (b : Buffer) (i : Nat) (bs : List Byte) : (s.writeBuf b i bs).frKind = s.frKind := rfl
@[simp] theorem writeBuf_frAddr (b : Buffer) (i : Nat) (bs : List Byte) : (s.writeBuf b i bs).frAddr = s.frAddr := rfl
@[simp] theorem writeBuf_frFunc (b : Buffer) (i : Nat) (bs : List Byte) : (s.writeBuf b i bs).frFunc = s.frFunc := rfl
@[simp] theorem writeBuf_frStart (b : Buffer) (i : Nat) (bs : List Byte) : (s.writeBuf b i bs).frStart = s.frStart := rfl
@[simp] theorem writeBuf_frLen (b : Buffer) (i : Nat) (bs : List Byte) : (s.writeBuf b i bs).frLen = s.frLen := rfl
@[simp] theorem writeBuf_frCksum (b : Buffer) (i : Nat) (bs : List Byte) : (s.writeBuf b i bs).frCksum = s.frCksum := rfl
@[simp] theorem writeBuf_cntOk (b : Buffer) (i : Nat) (bs : List Byte) : (s.writeBuf b i bs).cntOk = s.cntOk := rfl
@[simp] theorem writeBuf_cntCkerr (b : Buffer) (i : Nat) (bs : List Byte) : (s.writeBuf b i bs).cntCkerr = s.cntCkerr := rfl
@[simp] theorem writeBuf_cntTrunc (b : Buffer) (i : Nat) (bs : List Byte) : (s.writeBuf b i bs).cntTrunc = s.cntTrunc := rfl
@[simp] theorem writeBuf_cntMalf (b : Buffer) (i : Nat) (bs : List Byte) : (s.writeBuf b i bs).cntMalf = s.cntMalf := rfl
@[simp] theorem writeBuf_cntRxovf (b : Buffer) (i : Nat) (bs : List Byte) : (s.writeBuf b i bs).cntRxovf = s.cntRxovf := rfl
@[simp] theorem writeBuf_cntOvr (b : Buffer) (i : Nat) (bs : List Byte) : (s.writeBuf b i bs).cntOvr = s.cntOvr := rfl
@[simp] theorem writeBuf_mem (b : Buffer) (i : Nat) (bs : List Byte) : (s.writeBuf b i bs).mem = s.mem.writeBytes (bufferBase b + i) bs := rfl
@[simp] theorem writeBuf_pending (b : Buffer) (i : Nat) (bs : List Byte) : (s.writeBuf b i bs).pending = s.pending := rfl
@[simp] theorem writeBuf_responses (b : Buffer) (i : Nat) (bs : List Byte) : (s.writeBuf b i bs).responses = s.responses := rfl
@[simp] theorem writeBuf_draws (b : Buffer) (i : Nat) (bs : List Byte) : (s.writeBuf b i bs).draws = s.draws := rfl

/-! `State.complete`. -/

@[simp] theorem complete_cfg (c : ResultCode) (n : Nat) : (s.complete c n).cfg = s.cfg := rfl
@[simp] theorem complete_ctrl (c : ResultCode) (n : Nat) : (s.complete c n).ctrl = s.ctrl := rfl
@[simp] theorem complete_status (c : ResultCode) (n : Nat) : (s.complete c n).status = s.status := rfl
@[simp] theorem complete_irqEn (c : ResultCode) (n : Nat) : (s.complete c n).irqEn = s.irqEn := rfl
@[simp] theorem complete_arg0 (c : ResultCode) (n : Nat) : (s.complete c n).arg0 = s.arg0 := rfl
@[simp] theorem complete_arg1 (c : ResultCode) (n : Nat) : (s.complete c n).arg1 = s.arg1 := rfl
@[simp] theorem complete_arg2 (c : ResultCode) (n : Nat) : (s.complete c n).arg2 = s.arg2 := rfl
@[simp] theorem complete_arg3 (c : ResultCode) (n : Nat) : (s.complete c n).arg3 = s.arg3 := rfl
@[simp] theorem complete_result (c : ResultCode) (n : Nat) : (s.complete c n).result = c.code := rfl
@[simp] theorem complete_reslen (c : ResultCode) (n : Nat) : (s.complete c n).reslen = BitVec.ofNat 32 n := rfl
@[simp] theorem complete_crcAcc (c : ResultCode) (n : Nat) : (s.complete c n).crcAcc = s.crcAcc := rfl
@[simp] theorem complete_addAcc (c : ResultCode) (n : Nat) : (s.complete c n).addAcc = s.addAcc := rfl
@[simp] theorem complete_rxb (c : ResultCode) (n : Nat) : (s.complete c n).rxb = s.rxb := rfl
@[simp] theorem complete_frKind (c : ResultCode) (n : Nat) : (s.complete c n).frKind = s.frKind := rfl
@[simp] theorem complete_frAddr (c : ResultCode) (n : Nat) : (s.complete c n).frAddr = s.frAddr := rfl
@[simp] theorem complete_frFunc (c : ResultCode) (n : Nat) : (s.complete c n).frFunc = s.frFunc := rfl
@[simp] theorem complete_frStart (c : ResultCode) (n : Nat) : (s.complete c n).frStart = s.frStart := rfl
@[simp] theorem complete_frLen (c : ResultCode) (n : Nat) : (s.complete c n).frLen = s.frLen := rfl
@[simp] theorem complete_frCksum (c : ResultCode) (n : Nat) : (s.complete c n).frCksum = s.frCksum := rfl
@[simp] theorem complete_cntOk (c : ResultCode) (n : Nat) : (s.complete c n).cntOk = s.cntOk := rfl
@[simp] theorem complete_cntCkerr (c : ResultCode) (n : Nat) : (s.complete c n).cntCkerr = s.cntCkerr := rfl
@[simp] theorem complete_cntTrunc (c : ResultCode) (n : Nat) : (s.complete c n).cntTrunc = s.cntTrunc := rfl
@[simp] theorem complete_cntMalf (c : ResultCode) (n : Nat) : (s.complete c n).cntMalf = s.cntMalf := rfl
@[simp] theorem complete_cntRxovf (c : ResultCode) (n : Nat) : (s.complete c n).cntRxovf = s.cntRxovf := rfl
@[simp] theorem complete_cntOvr (c : ResultCode) (n : Nat) : (s.complete c n).cntOvr = s.cntOvr := rfl
@[simp] theorem complete_mem (c : ResultCode) (n : Nat) : (s.complete c n).mem = s.mem := rfl
@[simp] theorem complete_pending (c : ResultCode) (n : Nat) : (s.complete c n).pending = s.pending := rfl
@[simp] theorem complete_responses (c : ResultCode) (n : Nat) : (s.complete c n).responses = s.responses ++ [.ok] := rfl
@[simp] theorem complete_draws (c : ResultCode) (n : Nat) : (s.complete c n).draws = s.draws := rfl

/-! `State.fail`. -/

@[simp] theorem fail_cfg (c : ResultCode) : (s.fail c).cfg = s.cfg := rfl
@[simp] theorem fail_ctrl (c : ResultCode) : (s.fail c).ctrl = s.ctrl := rfl
@[simp] theorem fail_status (c : ResultCode) : (s.fail c).status = s.status ||| Status.cmderr := rfl
@[simp] theorem fail_irqEn (c : ResultCode) : (s.fail c).irqEn = s.irqEn := rfl
@[simp] theorem fail_arg0 (c : ResultCode) : (s.fail c).arg0 = s.arg0 := rfl
@[simp] theorem fail_arg1 (c : ResultCode) : (s.fail c).arg1 = s.arg1 := rfl
@[simp] theorem fail_arg2 (c : ResultCode) : (s.fail c).arg2 = s.arg2 := rfl
@[simp] theorem fail_arg3 (c : ResultCode) : (s.fail c).arg3 = s.arg3 := rfl
@[simp] theorem fail_result (c : ResultCode) : (s.fail c).result = c.code := rfl
@[simp] theorem fail_reslen (c : ResultCode) : (s.fail c).reslen = 0#32 := rfl
@[simp] theorem fail_crcAcc (c : ResultCode) : (s.fail c).crcAcc = s.crcAcc := rfl
@[simp] theorem fail_addAcc (c : ResultCode) : (s.fail c).addAcc = s.addAcc := rfl
@[simp] theorem fail_rxb (c : ResultCode) : (s.fail c).rxb = s.rxb := rfl
@[simp] theorem fail_frKind (c : ResultCode) : (s.fail c).frKind = s.frKind := rfl
@[simp] theorem fail_frAddr (c : ResultCode) : (s.fail c).frAddr = s.frAddr := rfl
@[simp] theorem fail_frFunc (c : ResultCode) : (s.fail c).frFunc = s.frFunc := rfl
@[simp] theorem fail_frStart (c : ResultCode) : (s.fail c).frStart = s.frStart := rfl
@[simp] theorem fail_frLen (c : ResultCode) : (s.fail c).frLen = s.frLen := rfl
@[simp] theorem fail_frCksum (c : ResultCode) : (s.fail c).frCksum = s.frCksum := rfl
@[simp] theorem fail_cntOk (c : ResultCode) : (s.fail c).cntOk = s.cntOk := rfl
@[simp] theorem fail_cntCkerr (c : ResultCode) : (s.fail c).cntCkerr = s.cntCkerr := rfl
@[simp] theorem fail_cntTrunc (c : ResultCode) : (s.fail c).cntTrunc = s.cntTrunc := rfl
@[simp] theorem fail_cntMalf (c : ResultCode) : (s.fail c).cntMalf = s.cntMalf := rfl
@[simp] theorem fail_cntRxovf (c : ResultCode) : (s.fail c).cntRxovf = s.cntRxovf := rfl
@[simp] theorem fail_cntOvr (c : ResultCode) : (s.fail c).cntOvr = s.cntOvr := rfl
@[simp] theorem fail_mem (c : ResultCode) : (s.fail c).mem = s.mem := rfl
@[simp] theorem fail_pending (c : ResultCode) : (s.fail c).pending = s.pending := rfl
@[simp] theorem fail_responses (c : ResultCode) : (s.fail c).responses = s.responses ++ [.ok] := rfl
@[simp] theorem fail_draws (c : ResultCode) : (s.fail c).draws = s.draws := rfl

/-! `State.applyReset`. -/

@[simp] theorem applyReset_cfg : (s.applyReset).cfg = s.cfg := rfl
@[simp] theorem applyReset_ctrl : (s.applyReset).ctrl = 0#3 := rfl
@[simp] theorem applyReset_status : (s.applyReset).status = 0#7 := rfl
@[simp] theorem applyReset_irqEn : (s.applyReset).irqEn = 0#7 := rfl
@[simp] theorem applyReset_arg0 : (s.applyReset).arg0 = 0#32 := rfl
@[simp] theorem applyReset_arg1 : (s.applyReset).arg1 = 0#32 := rfl
@[simp] theorem applyReset_arg2 : (s.applyReset).arg2 = 0#32 := rfl
@[simp] theorem applyReset_arg3 : (s.applyReset).arg3 = 0#32 := rfl
@[simp] theorem applyReset_result : (s.applyReset).result = 0#3 := rfl
@[simp] theorem applyReset_reslen : (s.applyReset).reslen = 0#32 := rfl
@[simp] theorem applyReset_crcAcc : (s.applyReset).crcAcc = 0xFFFF#16 := rfl
@[simp] theorem applyReset_addAcc : (s.applyReset).addAcc = 0x00#8 := rfl
@[simp] theorem applyReset_rxb : (s.applyReset).rxb = [] := rfl
@[simp] theorem applyReset_frKind : (s.applyReset).frKind = 0#2 := rfl
@[simp] theorem applyReset_frAddr : (s.applyReset).frAddr = 0#16 := rfl
@[simp] theorem applyReset_frFunc : (s.applyReset).frFunc = 0#16 := rfl
@[simp] theorem applyReset_frStart : (s.applyReset).frStart = 0#32 := rfl
@[simp] theorem applyReset_frLen : (s.applyReset).frLen = 0#32 := rfl
@[simp] theorem applyReset_frCksum : (s.applyReset).frCksum = 0#16 := rfl
@[simp] theorem applyReset_cntOk : (s.applyReset).cntOk = 0#32 := rfl
@[simp] theorem applyReset_cntCkerr : (s.applyReset).cntCkerr = 0#32 := rfl
@[simp] theorem applyReset_cntTrunc : (s.applyReset).cntTrunc = 0#32 := rfl
@[simp] theorem applyReset_cntMalf : (s.applyReset).cntMalf = 0#32 := rfl
@[simp] theorem applyReset_cntRxovf : (s.applyReset).cntRxovf = 0#32 := rfl
@[simp] theorem applyReset_cntOvr : (s.applyReset).cntOvr = 0#32 := rfl
@[simp] theorem applyReset_mem : (s.applyReset).mem = [] := rfl
@[simp] theorem applyReset_pending : (s.applyReset).pending = s.pending := rfl
@[simp] theorem applyReset_responses : (s.applyReset).responses = s.responses := rfl
@[simp] theorem applyReset_draws : (s.applyReset).draws = s.draws := rfl

end Sys2Proof.Machine
end

