-- ==== Sys2Proof/Laws/Memory.lean ====
section
/-! SUPPORT. The laws of the buffers' memory: reading after writing, the canonical form, and everything a read of the
buffers can do. -/

namespace Sys2Proof.Machine

/-! One byte. -/

@[simp] theorem Memory.read_nil (a : Nat) : Memory.read [] a = none := rfl

theorem Memory.read_cons (c : Host.Cell) (m : Memory) (a : Nat) :
    Memory.read (c :: m) a = if c.1 = a then some c.2 else Memory.read m a := rfl

/-- A read after a write gives the byte at the offset written and leaves every other offset alone. -/
theorem Memory.read_write (m : Memory) (a x : Nat) (b : Byte) :
    (m.write a b).read x = if x = a then some b else m.read x := by
  induction m with
  | nil => simp only [Memory.write, Memory.read_cons, Memory.read_nil, eq_comm (a := a)]
  | cons c m ih =>
    simp only [Memory.write]
    split
    · simp only [Memory.read_cons, eq_comm (a := a)]
    · split
      · next h => subst h; simp only [Memory.read_cons, eq_comm (a := c.1)]; split <;> simp_all
      · next h =>
        simp only [Memory.read_cons, ih]
        by_cases hc : c.1 = x
        · rw [if_pos hc, if_pos hc, if_neg (fun e : x = a => h (e ▸ hc.symm))]
        · rw [if_neg hc, if_neg hc]

/-- The offsets of the entries after a write. -/
theorem Memory.mem_write {m : Memory} {a : Nat} {b : Byte} {c : Host.Cell} (h : c ∈ m.write a b) :
    c = (a, b) ∨ c ∈ m := by
  induction m with
  | nil => exact .inl (by simpa [Memory.write] using h)
  | cons d m ih =>
    simp only [Memory.write] at h
    split at h
    · simpa using h
    · split at h
      · rcases List.mem_cons.1 h with h | h
        · exact .inl h
        · exact .inr (List.mem_cons_of_mem _ h)
      · rcases List.mem_cons.1 h with h | h
        · exact .inr (h ▸ List.mem_cons_self)
        · exact (ih h).imp_right (List.mem_cons_of_mem _)

/-- A write of a buffer byte keeps the canonical form. -/
theorem Memory.write_wf {m : Memory} {a : Nat} (b : Byte) (h : m.wf)
    (ha : buffersStart ≤ a ∧ a < windowEnd) : (m.write a b).wf := by
  refine ⟨?_, fun c hc => (Memory.mem_write hc).elim (fun e => e ▸ ha) (h.2 c)⟩
  have hs := h.1
  clear h ha
  induction m with
  | nil => exact List.pairwise_singleton _ _
  | cons d m ih =>
    have hd := List.pairwise_cons.1 hs
    simp only [Memory.write]
    split
    · next hlt =>
      refine List.pairwise_cons.2 ⟨fun c hc => ?_, hs⟩
      rcases List.mem_cons.1 hc with rfl | hc
      · exact hlt
      · exact Nat.lt_trans hlt (hd.1 c hc)
    · split
      · next he => exact List.pairwise_cons.2 ⟨fun c hc => he ▸ hd.1 c hc, hd.2⟩
      · next hn he =>
        refine List.pairwise_cons.2 ⟨fun c hc => ?_, ih hd.2⟩
        rcases Memory.mem_write hc with rfl | hc
        · simp only; omega
        · exact hd.1 c hc

/-- Every entry's offset reads as its byte. -/
theorem Memory.read_of_mem {m : Memory} (h : m.Pairwise (fun c d => c.1 < d.1)) {c : Host.Cell} (hc : c ∈ m) :
    m.read c.1 = some c.2 := by
  induction m with
  | nil => cases hc
  | cons d m ih =>
    have hd := List.pairwise_cons.1 h
    rcases List.mem_cons.1 hc with rfl | hc
    · simp [Memory.read_cons]
    · rw [Memory.read_cons, if_neg (Nat.ne_of_lt (hd.1 c hc)), ih hd.2 hc]

/-- A byte that reads as written stands in the list. -/
theorem Memory.mem_of_read {m : Memory} {a : Nat} {b : Byte} (h : m.read a = some b) : (a, b) ∈ m := by
  induction m with
  | nil => simp at h
  | cons c m ih =>
    rw [Memory.read_cons] at h
    split at h
    · next he => cases he; cases h; exact List.mem_cons_self
    · exact List.mem_cons_of_mem _ (ih h)

/-! Strings. -/

/-- A read after a write of a string. -/
theorem Memory.read_writeBytes (m : Memory) (a x : Nat) (bs : List Byte) :
    (m.writeBytes a bs).read x = if a ≤ x ∧ x < a + bs.length then bs[x - a]? else m.read x := by
  induction bs generalizing m a with
  | nil => simp [Memory.writeBytes]
  | cons b bs ih =>
    simp only [Memory.writeBytes, ih, List.length_cons, Memory.read_write]
    by_cases h1 : a + 1 ≤ x ∧ x < a + 1 + bs.length
    · rw [if_pos h1, if_pos (by omega)]
      obtain ⟨k, rfl⟩ : ∃ k, x = a + (k + 1) := ⟨x - (a + 1), by omega⟩
      have e1 : a + (k + 1) - (a + 1) = k := by omega
      have e2 : a + (k + 1) - a = k + 1 := by omega
      simp [e1, e2]
    · rw [if_neg h1]
      by_cases h2 : x = a
      · subst h2; simp
      · rw [if_neg h2, if_neg (by omega)]

/-- A read outside the bytes of a string that was written. -/
theorem Memory.read_writeBytes_outside (m : Memory) {a x : Nat} {bs : List Byte}
    (h : x < a ∨ a + bs.length ≤ x) : (m.writeBytes a bs).read x = m.read x := by
  rw [Memory.read_writeBytes, if_neg (by omega)]

/-- A read of byte `k` of a string that was written. -/
theorem Memory.read_writeBytes_inside (m : Memory) (a : Nat) {k : Nat} {bs : List Byte} (h : k < bs.length) :
    (m.writeBytes a bs).read (a + k) = bs[k]? := by
  rw [Memory.read_writeBytes, if_pos (by omega), Nat.add_sub_cancel_left]

/-- A write of a string inside the buffers keeps the canonical form. -/
theorem Memory.writeBytes_wf {m : Memory} {a : Nat} {bs : List Byte} (h : m.wf)
    (h1 : buffersStart ≤ a) (h2 : a + bs.length ≤ windowEnd) : (m.writeBytes a bs).wf := by
  induction bs generalizing m a with
  | nil => exact h
  | cons b bs ih =>
    simp only [List.length_cons] at h2
    exact ih (Memory.write_wf b h ⟨h1, by omega⟩) (by omega) (by omega)

/-! Reads of the buffers. -/

/-- Everything `readByte` can do when it answers a byte: only the count of free bytes drawn can change, and a byte
that has been written is the one answered. -/
theorem readByte_ok {s t : State} {a : Nat} {b : Byte} (h : s.readByte a = .ok (b, t)) :
    t = { s with draws := t.draws } ∧ (∀ c, s.mem.read a = some c → b = c) ∧
      ((s.mem.read a).isSome = true → t = s) ∧
      (s.cfg.uninitRead = .draw ∨ (s.mem.read a).isSome = true) := by
  unfold State.readByte at h
  split at h
  · next c hc => cases h; simp [hc]
  · next hc =>
    split at h
    · cases h
    · next hu => cases h; simp [hc, hu]

/-- `readByte` faults exactly on an unwritten byte under `UNINIT_READ = fault`, and names it. -/
theorem readByte_error {s : State} {a : Nat} {f : Fault} (h : s.readByte a = .error f) :
    s.cfg.uninitRead = .fault ∧ s.mem.read a = none ∧ f = .unwrittenByte a := by
  unfold State.readByte at h
  split at h
  · cases h
  · next hc =>
    split at h
    · next hu => cases h; exact ⟨hu, hc, rfl⟩
    · cases h

/-- Everything `readBytes` can do when it answers a string. -/
theorem readBytes_ok {s t : State} {a n : Nat} {bs : List Byte} (h : s.readBytes a n = .ok (bs, t)) :
    t = { s with draws := t.draws } ∧ bs.length = n ∧
      (∀ k b, k < n → s.mem.read (a + k) = some b → bs[k]? = some b) ∧
      ((∀ k, k < n → (s.mem.read (a + k)).isSome = true) → t = s) ∧
      (s.cfg.uninitRead = .draw ∨ ∀ k, k < n → (s.mem.read (a + k)).isSome = true) := by
  induction n generalizing s a bs with
  | zero => cases h; simp
  | succ n ih =>
    simp only [State.readBytes] at h
    split at h
    · cases h
    · next b s1 h1 =>
      split at h
      · cases h
      · next bs2 s2 h2 =>
        cases h
        obtain ⟨e1, c1, d1, w1⟩ := readByte_ok h1
        obtain ⟨e2, l2, c2, d2, w2⟩ := ih h2
        have hm : s1.mem = s.mem := by rw [e1]
        have hc : s1.cfg = s.cfg := by rw [e1]
        rw [hm] at c2 d2 w2
        rw [hc] at w2
        refine ⟨by rw [e2, e1], by simp [l2], ?_, ?_, ?_⟩
        · intro k c hk hr
          cases k with
          | zero => simp [c1 c hr]
          | succ k => simpa using c2 k c (by omega) (by rwa [show a + 1 + k = a + (k + 1) by omega])
        · intro hw
          rw [d2 (fun k hk => by rw [show a + 1 + k = a + (k + 1) by omega]; exact hw (k + 1) (by omega))]
          exact d1 (hw 0 (by omega))
        · rcases w1 with w1 | w1
          · exact .inl w1
          · refine w2.imp_right (fun w2 k hk => ?_)
            cases k with
            | zero => exact w1
            | succ k => rw [show a + (k + 1) = a + 1 + k by omega]; exact w2 k (by omega)

/-- `readBytes` faults exactly on an unwritten byte under `UNINIT_READ = fault`, and names the first one. -/
theorem readBytes_error {s : State} {a n : Nat} {f : Fault} (h : s.readBytes a n = .error f) :
    s.cfg.uninitRead = .fault ∧ ∃ k, k < n ∧ s.mem.read (a + k) = none ∧ f = .unwrittenByte (a + k) ∧
      ∀ j, j < k → (s.mem.read (a + j)).isSome = true := by
  induction n generalizing s a with
  | zero => cases h
  | succ n ih =>
    simp only [State.readBytes] at h
    split at h
    · next g h1 =>
      cases h
      obtain ⟨hu, hr, rfl⟩ := readByte_error h1
      exact ⟨hu, 0, by omega, hr, rfl, fun j hj => absurd hj (Nat.not_lt_zero j)⟩
    · next b s1 h1 =>
      split at h
      · next g h2 =>
        cases h
        obtain ⟨e1, -, -, w1⟩ := readByte_ok h1
        obtain ⟨hu, k, hk, hr, hf, hj⟩ := ih h2
        have hm : s1.mem = s.mem := by rw [e1]
        have hc : s1.cfg = s.cfg := by rw [e1]
        rw [hm] at hr hj
        rw [hc] at hu
        refine ⟨hu, k + 1, by omega, by rwa [show a + (k + 1) = a + 1 + k by omega],
          by rw [hf, show a + 1 + k = a + (k + 1) by omega], fun j hj' => ?_⟩
        cases j with
        | zero => exact w1.resolve_left (by rw [hu]; decide)
        | succ j => rw [show a + (j + 1) = a + 1 + j by omega]; exact hj j (by omega)
      · cases h

/-- A read answers a string when every byte is written, or free bytes may be drawn. -/
theorem readBytes_total {s : State} {a n : Nat}
    (h : s.cfg.uninitRead = .draw ∨ ∀ k, k < n → (s.mem.read (a + k)).isSome = true) :
    ∃ bs t, s.readBytes a n = .ok (bs, t) := by
  cases hr : s.readBytes a n with
  | ok p => exact ⟨p.1, p.2, rfl⟩
  | error f =>
    obtain ⟨hu, k, hk, hn, -⟩ := readBytes_error hr
    rcases h with h | h
    · rw [hu] at h; cases h
    · simpa [hn] using h k hk

end Sys2Proof.Machine
end

