-- ==== Sys2Proof/Laws/Ops.lean ====
section
/-! SUPPORT. Everything that the shared operations can do: a delivery, a byte pushed into the synchronizer, the end of
a buffer decode command, and the canonical form of memory after each. Proofs about instructions cite these and unfold
none of them. -/

namespace Sys2Proof.Machine

/-! Memory. -/

/-- Right after reset no byte is listed. -/
theorem reset_mem_wf : Memory.wf State.reset.mem := ⟨List.Pairwise.nil, fun _ h => nomatch h⟩

/-- The window of a buffer. -/
theorem bufferBase_range (b : Buffer) : buffersStart ≤ bufferBase b ∧ bufferBase b + bufferSize ≤ windowEnd := by
  cases b <;> decide

/-- A string written inside a buffer keeps the canonical form. -/
theorem writeBuf_wf {s : State} {b : Buffer} {i : Nat} {bs : List Byte} (h : s.mem.wf)
    (hl : i + bs.length ≤ bufferSize) : (s.writeBuf b i bs).mem.wf := by
  have := bufferBase_range b
  exact Memory.writeBytes_wf h (by omega) (by omega)

/-- `RXCOUNT` is the length of `RXB`, for the lengths that 32 bits hold (R45). -/
theorem rxcount_toNat {s : State} (h : s.rxb.length < 2 ^ 32) : s.rxcount.toNat = s.rxb.length := by
  rw [State.rxcount, if_pos h, BitVec.toNat_ofNat, Nat.mod_eq_of_lt h]

/-- The argument check of the commands with a buffer argument, as R93 writes it. -/
theorem inSrc_iff {off n : Nat} : inSrc off n = true ↔ off + n ≤ 16384 := decide_eq_true_iff

/-- The argument check of `ENC_ASCII` (R182). -/
theorem encAscii_check {L off : Nat} :
    (decide (L ≤ asciiMaxLen) && inSrc off L) = true ↔ L ≤ 9999 ∧ off + L ≤ 16384 := by
  rw [Bool.and_eq_true, inSrc_iff, decide_eq_true_iff]; rfl

/-- The argument check of `ENC_RTU_WR` (R223). -/
theorem encRtuWr_check {cnt off : Nat} :
    (decide (cnt ≤ rtuMaxWriteCount) && inSrc off (2 * cnt)) = true ↔ cnt ≤ 127 ∧ off + 2 * cnt ≤ 16384 := by
  rw [Bool.and_eq_true, inSrc_iff, decide_eq_true_iff]; rfl

/-- Written bytes stay written when memory only gains bytes. -/
theorem Written.writeBytes {s t : State} {a n x : Nat} {bs : List Byte} (h : Written s a n)
    (hm : t.mem = s.mem.writeBytes x bs) : Written t a n := by
  intro k hk
  rw [hm, Memory.read_writeBytes]
  split
  · rw [List.getElem?_eq_getElem (by omega)]; rfl
  · exact h k hk

/-- A read that may not fault answers a string; only the count of free bytes drawn can change, and not even that when
every byte is written. -/
theorem readBytes_of_readable {s : State} {a n : Nat} (h : Readable s a n) :
    ∃ bs d, s.readBytes a n = .ok (bs, { s with draws := d }) ∧ SliceOf s a n bs ∧ (Written s a n → d = s.draws) := by
  obtain ⟨bs, t, ht⟩ := readBytes_total h
  obtain ⟨e, hl, hc, hw, -⟩ := readBytes_ok ht
  exact ⟨bs, t.draws, by rw [ht, ← e], ⟨hl, hc⟩, fun w => by rw [hw w]⟩

/-- A string written from the start of a buffer on stands there, and nothing else of memory changes. -/
theorem writeBuf_holds (s : State) (b : Buffer) (bs : List Byte) :
    HoldsAt (s.writeBuf b 0 bs) (bufferBase b) bs ∧
      SameMemOutside s (s.writeBuf b 0 bs) (bufferBase b) bs.length := by
  refine ⟨fun k hk => ?_, fun x hx => ?_⟩
  · rw [writeBuf_mem, Nat.add_zero, Memory.read_writeBytes_inside _ _ hk]
  · rw [writeBuf_mem, Nat.add_zero, Memory.read_writeBytes_outside _ hx]

/-- The value of a little-endian string fits its bytes (R86). -/
theorem leValue_lt (bs : List Byte) : leValue bs < 256 ^ bs.length := by
  induction bs with
  | nil => simp [leValue]
  | cons b bs ih =>
    have := b.isLt
    simp only [leValue, List.length_cons, Nat.pow_succ]
    omega

@[simp] theorem length_dataBytes (w : Width) (v : Word) : (dataBytes w v).length = w.bytes := by cases w <;> rfl

/-! Records. -/

/-- What the decoders say of a record that they answer (R183, R224, R256). -/
structure RecordOk (r : FrameRec) : Prop where
  data : ∀ d, r.data = some d → d.length = r.len.toNat ∧ d.length ≤ 9999
  ascii : r.kind = .ascii → r.data ≠ none ∧ r.ck.toNat < 256
  rtuRead : r.kind = .rtuRead →
    r.data ≠ none ∧ r.addr.toNat < 256 ∧ r.func = 0x03#16 ∧ r.start = 0#32 ∧ r.len.toNat < 256
  rtuWrite : r.kind = .rtuWrite →
    r.data = none ∧ r.addr.toNat < 256 ∧ r.func = 0x10#16 ∧ r.start.toNat < 65536 ∧ r.len.toNat < 65536

/-- A decode result that a delivery can be given: a frame has a record of a decoder. -/
abbrev ResultOk (res : DecodeResult) : Prop := ∀ r, res = .frame r → RecordOk r

theorem resultOk_invalid (k : InvalidKind) : ResultOk (.invalid k) := fun _ h => nomatch h

/-- The record of an ASCII body. -/
theorem resultOk_decodeBody (body : List Byte) : ResultOk (decodeBody body) := by
  intro r h
  obtain ⟨hk, d, hd, hl, hm⟩ := decodeBody_data h
  obtain ⟨-, -, -, -, -, he⟩ := decodeBody_frame h
  refine ⟨fun e he' => ?_, fun _ => ⟨by simp [hd], ?_⟩, fun e => ?_, fun e => ?_⟩
  · rw [hd] at he'; cases he'; exact ⟨hl, hm⟩
  · subst he
    have := (bodyChecksum body).isLt
    simp only [asciiRecord, BitVec.toNat_setWidth]; omega
  · rw [hk] at e; cases e
  · rw [hk] at e; cases e

/-- The record of an RTU frame. -/
theorem resultOk_decodeRtu (fr : List Byte) : ResultOk (decodeRtu fr) := by
  intro r h
  obtain ⟨-, -, ⟨-, hl, rfl⟩ | ⟨-, hl, rfl⟩⟩ := decodeRtu_frame h
  · have h0 := (byteAt fr 0).isLt
    have h2 := (byteAt fr 2).isLt
    refine ⟨fun d hd => ?_, nofun, fun _ => ⟨nofun, ?_, rfl, rfl, ?_⟩, nofun⟩
    · cases hd
      rw [length_slice (by omega)]
      simp only [BitVec.toNat_ofNat]
      omega
    · simp only [BitVec.toNat_setWidth]; omega
    · simp only [BitVec.toNat_ofNat]; omega
  · have h0 := (byteAt fr 0).isLt
    have h1 := (pack2 (byteAt fr 3) (byteAt fr 2)).isLt
    have h2 := (pack2 (byteAt fr 5) (byteAt fr 4)).isLt
    refine ⟨nofun, nofun, nofun, fun _ => ⟨rfl, ?_, rfl, ?_, ?_⟩⟩ <;>
    · simp only [BitVec.toNat_setWidth]; omega

/-- The result of a delimiter decode. -/
theorem resultOk_decodeBuffer {hdr : Byte} {buf : List Byte} {res : DecodeResult} {n : Nat}
    (h : decodeBuffer hdr buf = some (res, n)) : ResultOk res := by
  unfold decodeBuffer at h
  split at h
  · cases h
  · split at h
    · cases h
    · cases h; exact resultOk_decodeBody _

/-- The result of a declared-length decode. -/
theorem resultOk_decodeBufferLen {hdr : Byte} {buf : List Byte} {res : DecodeResult} {n : Nat}
    (h : decodeBufferLen hdr buf = some (res, n)) : ResultOk res := by
  unfold decodeBufferLen at h
  split at h
  · cases h
  · simp only at h
    split at h
    · cases h
    split at h
    · cases h; exact resultOk_invalid _
    split at h
    · cases h
    split at h
    · cases h; exact resultOk_invalid _
    · cases h; exact resultOk_decodeBody _

/-! Deliveries. -/

variable (s : State) (res : DecodeResult)

/-- Everything that a delivery leaves alone (R255). -/
theorem deliver_frame_fields : ∃ t, (s.deliver res).2 = t ∧ t.cfg = s.cfg ∧ t.ctrl = s.ctrl ∧ t.irqEn = s.irqEn ∧
    t.arg0 = s.arg0 ∧ t.arg1 = s.arg1 ∧ t.arg2 = s.arg2 ∧ t.arg3 = s.arg3 ∧ t.result = s.result ∧
    t.reslen = s.reslen ∧ t.crcAcc = s.crcAcc ∧ t.addAcc = s.addAcc ∧ t.rxb = s.rxb ∧ t.cntRxovf = s.cntRxovf ∧
    t.pending = s.pending ∧ t.responses = s.responses ∧ t.draws = s.draws := by
  refine ⟨_, rfl, ?_⟩
  cases res with
  | invalid k => cases k <;> simp [State.deliver]
  | frame r =>
    simp only [State.deliver]
    split
    · simp
    · simp only [State.loadFrame]
      split <;> simp

@[simp] theorem deliver_cfg : (s.deliver res).2.cfg = s.cfg := by
  obtain ⟨t, e, h⟩ := deliver_frame_fields s res; rw [e]; exact h.1
@[simp] theorem deliver_ctrl : (s.deliver res).2.ctrl = s.ctrl := by
  obtain ⟨t, e, h⟩ := deliver_frame_fields s res; rw [e]; exact h.2.1
@[simp] theorem deliver_irqEn : (s.deliver res).2.irqEn = s.irqEn := by
  obtain ⟨t, e, h⟩ := deliver_frame_fields s res; rw [e]; exact h.2.2.1
@[simp] theorem deliver_arg0 : (s.deliver res).2.arg0 = s.arg0 := by
  obtain ⟨t, e, h⟩ := deliver_frame_fields s res; rw [e]; exact h.2.2.2.1
@[simp] theorem deliver_arg1 : (s.deliver res).2.arg1 = s.arg1 := by
  obtain ⟨t, e, h⟩ := deliver_frame_fields s res; rw [e]; exact h.2.2.2.2.1
@[simp] theorem deliver_arg2 : (s.deliver res).2.arg2 = s.arg2 := by
  obtain ⟨t, e, h⟩ := deliver_frame_fields s res; rw [e]; exact h.2.2.2.2.2.1
@[simp] theorem deliver_arg3 : (s.deliver res).2.arg3 = s.arg3 := by
  obtain ⟨t, e, h⟩ := deliver_frame_fields s res; rw [e]; exact h.2.2.2.2.2.2.1
@[simp] theorem deliver_result : (s.deliver res).2.result = s.result := by
  obtain ⟨t, e, h⟩ := deliver_frame_fields s res; rw [e]; exact h.2.2.2.2.2.2.2.1
@[simp] theorem deliver_reslen : (s.deliver res).2.reslen = s.reslen := by
  obtain ⟨t, e, h⟩ := deliver_frame_fields s res; rw [e]; exact h.2.2.2.2.2.2.2.2.1
@[simp] theorem deliver_crcAcc : (s.deliver res).2.crcAcc = s.crcAcc := by
  obtain ⟨t, e, h⟩ := deliver_frame_fields s res; rw [e]; exact h.2.2.2.2.2.2.2.2.2.1
@[simp] theorem deliver_addAcc : (s.deliver res).2.addAcc = s.addAcc := by
  obtain ⟨t, e, h⟩ := deliver_frame_fields s res; rw [e]; exact h.2.2.2.2.2.2.2.2.2.2.1
@[simp] theorem deliver_rxb : (s.deliver res).2.rxb = s.rxb := by
  obtain ⟨t, e, h⟩ := deliver_frame_fields s res; rw [e]; exact h.2.2.2.2.2.2.2.2.2.2.2.1
@[simp] theorem deliver_cntRxovf : (s.deliver res).2.cntRxovf = s.cntRxovf := by
  obtain ⟨t, e, h⟩ := deliver_frame_fields s res; rw [e]; exact h.2.2.2.2.2.2.2.2.2.2.2.2.1
@[simp] theorem deliver_pending : (s.deliver res).2.pending = s.pending := by
  obtain ⟨t, e, h⟩ := deliver_frame_fields s res; rw [e]; exact h.2.2.2.2.2.2.2.2.2.2.2.2.2.1
@[simp] theorem deliver_responses : (s.deliver res).2.responses = s.responses := by
  obtain ⟨t, e, h⟩ := deliver_frame_fields s res; rw [e]; exact h.2.2.2.2.2.2.2.2.2.2.2.2.2.2.1
@[simp] theorem deliver_draws : (s.deliver res).2.draws = s.draws := by
  obtain ⟨t, e, h⟩ := deliver_frame_fields s res; rw [e]; exact h.2.2.2.2.2.2.2.2.2.2.2.2.2.2.2

/-- Everything that a delivery can change (R255): nothing of the frame holding register and one sticky bit, or the
whole of it, one counter in either case. `deliver_frame_fields` says what stays. -/
theorem deliver_cases {s : State} {res : DecodeResult} {c : ResultCode} {t : State} (h : s.deliver res = (c, t)) :
    (∃ r, res = .frame r ∧ s.frameValid = true ∧ c = .overrun ∧
      t = { s with status := s.status ||| Status.ovr, cntOvr := s.cntOvr + 1#32 }) ∨
    (∃ r, res = .frame r ∧ s.frameValid = false ∧ c = .ok ∧
      t = { s with
        frKind := r.kind.code, frAddr := r.addr, frFunc := r.func, frStart := r.start, frLen := r.len,
        frCksum := r.ck, status := s.status ||| Status.frameValid, cntOk := s.cntOk + 1#32,
        mem := match r.data with
          | none => s.mem
          | some d => s.mem.writeBytes 0xC000 d }) ∨
    (res = .invalid .checksumMismatch ∧ c = .cksumMismatch ∧
      t = { s with status := s.status ||| Status.ckerr, cntCkerr := s.cntCkerr + 1#32 }) ∨
    (res = .invalid .truncated ∧ c = .truncated ∧
      t = { s with status := s.status ||| Status.trunc, cntTrunc := s.cntTrunc + 1#32 }) ∨
    (res = .invalid .malformed ∧ c = .malformed ∧
      t = { s with status := s.status ||| Status.malf, cntMalf := s.cntMalf + 1#32 }) := by
  cases res with
  | invalid k =>
    cases k
    · cases h; exact .inr (.inr (.inl ⟨rfl, rfl, rfl⟩))
    · cases h; exact .inr (.inr (.inr (.inl ⟨rfl, rfl, rfl⟩)))
    · cases h; exact .inr (.inr (.inr (.inr ⟨rfl, rfl, rfl⟩)))
  | frame r =>
    simp only [State.deliver] at h
    split at h
    · next hv => cases h; exact .inl ⟨r, rfl, hv, rfl, rfl⟩
    · next hv =>
      cases h
      refine .inr (.inl ⟨r, rfl, by simpa using hv, rfl, ?_⟩)
      obtain ⟨_, _, _, _, _, _, _ | d⟩ := r <;> rfl

/-- What a delivery does to memory. -/
theorem deliver_mem : (s.deliver res).2.mem = s.mem ∨
    ∃ r d, res = .frame r ∧ r.data = some d ∧ (s.deliver res).2.mem = s.mem.writeBytes 0xC000 d ∧
      (s.deliver res).2.frLen = r.len := by
  obtain ⟨c, t, h⟩ : ∃ c t, s.deliver res = (c, t) := ⟨_, _, rfl⟩
  rw [h]
  rcases deliver_cases h with ⟨_, -, -, -, rfl⟩ | ⟨r, hr, -, -, rfl⟩ | ⟨-, -, rfl⟩ | ⟨-, -, rfl⟩ | ⟨-, -, rfl⟩
  · exact .inl rfl
  · cases hd : r.data with
    | none => exact .inl rfl
    | some d => exact .inr ⟨r, d, hr, hd, rfl, rfl⟩
  · exact .inl rfl
  · exact .inl rfl
  · exact .inl rfl

/-- A delivery of a decoder's result keeps the canonical form of memory. -/
theorem deliver_wf {s : State} {res : DecodeResult} (hr : ResultOk res) (h : s.mem.wf) :
    (s.deliver res).2.mem.wf := by
  rcases deliver_mem s res with e | ⟨r, d, rfl, hd, e, -⟩
  · rw [e]; exact h
  · rw [e]
    have := ((hr r rfl).data d hd).2
    exact Memory.writeBytes_wf h (by decide) (by simp only [windowEnd]; omega)

/-! The end of a buffer decode command. -/

/-- `finishDecode` without a result. -/
@[simp] theorem finishDecode_none : finishDecode none s = s.complete .needMore 0 := rfl

/-- `finishDecode` with a result. -/
@[simp] theorem finishDecode_some (n : Nat) :
    finishDecode (some (res, n)) s = (s.deliver res).2.complete (s.deliver res).1 n := rfl

/-! The synchronizer. -/

/-- What a framing step can do: nothing, a new partial frame of at most one byte more, or the end of a frame. -/
inductive FramingStep (s : State) : State → Prop where
  | drop : FramingStep s s
  | keep (rx : List Byte) : rx.length ≤ s.rxb.length + 1 → FramingStep s { s with rxb := rx }
  | finish (res : DecodeResult) : ResultOk res → (s.rxb = [] → s.rtuMode = true) → FramingStep s (s.endFrame res)

theorem asciiStart_step (b : Byte) (s : State) : FramingStep s (asciiStart b s) := by
  unfold asciiStart
  split
  · exact .keep [b] (by simp)
  · exact .drop

theorem asciiDelimStep_step (b : Byte) (s : State) : FramingStep s (asciiDelimStep b s) := by
  unfold asciiDelimStep
  split
  · exact asciiStart_step b s
  · next h =>
    simp only
    split
    · exact .finish _ (resultOk_decodeBody _) (fun e => absurd e h)
    · exact .keep _ (by simp)

theorem asciiLenStep_step (b : Byte) (s : State) : FramingStep s (asciiLenStep b s) := by
  unfold asciiLenStep
  split
  · exact asciiStart_step b s
  · next h =>
    simp only
    split
    · exact .keep _ (by simp)
    split
    · exact .finish _ (resultOk_invalid _) (fun e => absurd e h)
    split
    · exact .keep _ (by simp)
    split
    · exact .finish _ (resultOk_decodeBody _) (fun e => absurd e h)
    · exact .finish _ (resultOk_invalid _) (fun e => absurd e h)

theorem rtuStep_step (b : Byte) {s : State} (h : s.rtuMode = true) : FramingStep s (rtuStep b s) := by
  unfold rtuStep
  simp only
  split
  · exact .keep _ (by simp)
  · exact .finish _ (resultOk_invalid _) (fun _ => h)
  · split
    · exact .finish _ (resultOk_decodeRtu _) (fun _ => h)
    · exact .keep _ (by simp)

/-- Everything that a pushed byte can do (R251): one framing step, after the overflow when `RXB` is full. -/
theorem syncPush_cases (b : Byte) (s : State) :
    (s.syncEn = false ∧ syncPush b s = s) ∨
    (s.syncEn = true ∧ s.rxb.length ≠ s.cfg.rxbufCap ∧ FramingStep s (syncPush b s)) ∨
    (s.syncEn = true ∧ s.rxb.length = s.cfg.rxbufCap ∧ FramingStep (rxOverflow s) (syncPush b s)) := by
  unfold syncPush
  by_cases he : s.syncEn = true
  · have hstep : ∀ t : State, t.ctrl = s.ctrl → FramingStep t
        (if s.rtuMode then rtuStep b t else if s.syncLen then asciiLenStep b t else asciiDelimStep b t) := by
      intro t ht
      split
      · next hm => exact rtuStep_step b (by simpa [State.rtuMode, ht] using hm)
      · split
        · exact asciiLenStep_step b t
        · exact asciiDelimStep_step b t
    rw [if_pos he]
    by_cases hf : s.rxb.length = s.cfg.rxbufCap
    · simp only [if_pos hf]
      exact .inr (.inr ⟨he, hf, hstep _ rfl⟩)
    · simp only [if_neg hf]
      exact .inr (.inl ⟨he, hf, hstep _ rfl⟩)
  · rw [if_neg he]
    exact .inl ⟨by simpa using he, rfl⟩

end Sys2Proof.Machine
end

