-- ==== Sys2Proof/Laws/PerInstr.lean ====
section
/-! SUPPORT. What is proved of each instruction as syntax: the bus access of its encoding has a shape that the bus
accepts (spec/20_memory.md R82 to R84). -/

namespace Sys2Proof.Laws.AccessShape

/-- An aligned 32-bit access to a register, or a naturally aligned access to a buffer that is a read or reaches
`SRC`. -/
def Accepted (a : BusAccess) : Prop :=
  (a.width = .w32 ∧ a.offset.toNat % 4 = 0 ∧ a.offset.toNat < 0x74) ∨
  (0x4000 ≤ a.offset.toNat ∧ a.offset.toNat % a.width.bytes = 0 ∧ (a.dir = .write → a.offset.toNat < 0x8000))

/-- The encoding of a well-formed instruction is an access of an accepted shape. -/
def Statement (i : Instr) : Prop := i.wellFormed = true → Accepted (encode i)

/-- A register access. -/
theorem accepted_register (d : Dir) (r : Reg) (v : Word) : Accepted ⟨d, .w32, r.offset, v⟩ :=
  .inl ⟨rfl, r.offset_range.1, r.offset_range.2⟩

/-- An aligned buffer access. -/
theorem accepted_buffer {d : Dir} {w : Width} {b : Buffer} {i : BitVec 14} {v : Word}
    (h : w.aligned i.toNat = true) (hb : d = .write → b = .src) : Accepted ⟨d, w, b.offset i, v⟩ := by
  refine .inr ⟨b.offset_ge i, ?_, fun hd => ?_⟩
  · rw [← aligned_offset w b i] at h
    simpa only [Width.aligned, beq_iff_eq] using h
  · have := i.isLt
    simp only [hb hd, Buffer.offset_toNat, Buffer.select]
    simp
    omega

theorem nop : Statement .nop := fun _ => accepted_register _ .cmd _
theorem crcInit : Statement .crcInit := fun _ => accepted_register _ .cmd _
theorem crcBuf : Statement .crcBuf := fun _ => accepted_register _ .cmd _
theorem addInit : Statement .addInit := fun _ => accepted_register _ .cmd _
theorem addBuf : Statement .addBuf := fun _ => accepted_register _ .cmd _
theorem encAscii : Statement .encAscii := fun _ => accepted_register _ .cmd _
theorem encRtuRd : Statement .encRtuRd := fun _ => accepted_register _ .cmd _
theorem encRtuWr : Statement .encRtuWr := fun _ => accepted_register _ .cmd _
theorem decAscii : Statement .decAscii := fun _ => accepted_register _ .cmd _
theorem decRtu : Statement .decRtu := fun _ => accepted_register _ .cmd _
theorem decAsciiLen : Statement .decAsciiLen := fun _ => accepted_register _ .cmd _
theorem syncReset : Statement .syncReset := fun _ => accepted_register _ .cmd _
theorem frameAck : Statement .frameAck := fun _ => accepted_register _ .cmd _
theorem cntClear : Statement .cntClear := fun _ => accepted_register _ .cmd _
theorem crcByte (b : Byte) : Statement (.crcByte b) := fun _ => accepted_register _ .crcDin _
theorem addByte (b : Byte) : Statement (.addByte b) := fun _ => accepted_register _ .addDin _
theorem syncPush (b : Byte) : Statement (.syncPush b) := fun _ => accepted_register _ .rxpush _
theorem ctrlWrite (v : BitVec 3) : Statement (.ctrlWrite v) := fun _ => accepted_register _ .ctrl _
theorem statusW1c (clear : BitVec 6) : Statement (.statusW1c clear) := fun _ => accepted_register _ .status _
theorem irqenWrite (en : BitVec 7) : Statement (.irqenWrite en) := fun _ => accepted_register _ .irqEn _
theorem argWrite (n : ArgReg) (v : Word) : Statement (.argWrite n v) := fun _ => accepted_register _ n.reg _
theorem regRead (r : Reg) : Statement (.regRead r) := fun _ => accepted_register _ r _
theorem bufRead (b : Buffer) (i : BitVec 14) (w : Width) : Statement (.bufRead b i w) :=
  fun h => accepted_buffer h nofun
theorem srcWrite (i : BitVec 14) (w : Width) (v : Word) : Statement (.srcWrite i w v) :=
  fun h => accepted_buffer (Bool.and_eq_true_iff.1 h).1 fun _ => rfl

end Sys2Proof.Laws.AccessShape
end

