-- ==== Sys2Proof/Tests/Slice0.lean ====
section
/-! SUPPORT. Tests. Expected results come from the spec: the encodings of spec/30_encoding.md and the vectors of
spec/95_test_vectors.md, by their numbers. The last part shows, for every statement with hypotheses, values that meet
them. -/

namespace Sys2Proof.Machine.Tests

/-! ## Helpers -/

/-- A byte string from numbers. -/
def str (l : List Nat) : List Byte := l.map (BitVec.ofNat 8)

/-- Something of the next state. -/
def after {α : Type} (o : Host.Outcome State Fault Refusal) (f : State → α) : Option α :=
  match o with
  | .next t => some (f t)
  | .fault _ => none
  | .refused _ => none

/-- The fault of an outcome. -/
def faultOf (o : Host.Outcome State Fault Refusal) : Option Fault :=
  match o with
  | .fault f => some f
  | .next _ => none
  | .refused _ => none

/-- A state with a string in memory from an offset on. -/
def holding (a : Nat) (bs : List Byte) : State := { State.reset with mem := Memory.writeBytes [] a bs }

/-- A state with a string at the start of `SRC`, its length in `ARG2` and 0 in `ARG3`. -/
def given (bs : List Byte) : State :=
  { holding 0x4000 bs with arg2 := BitVec.ofNat 32 bs.length, arg3 := 0#32 }

/-- The reset state with one host access pending, at the default `BASE`. -/
def asked (d : Dir) (w : Width) (a : Nat) (v : Word) : State :=
  { State.reset with pending := [.access ⟨d, w, a, v⟩] }

/-- The frame holding register. -/
structure Held where
  kind : BitVec 2
  addr : Half
  func : Half
  start : Word
  len : Word
  ck : Half
  deriving DecidableEq, Repr

/-- What the frame holding register holds. -/
def held (t : State) : Held := ⟨t.frKind, t.frAddr, t.frFunc, t.frStart, t.frLen, t.frCksum⟩

/-- The `n` bytes of memory from an offset on. -/
def bytesAt (s : State) (a : Nat) : Nat → List (Option Byte)
  | 0 => []
  | n + 1 => s.mem.read a :: bytesAt s (a + 1) n

/-- E1 of §2.3: `":01030000000044\r\n"`. -/
def frameE1 : List Byte := str [0x3A, 0x30, 0x31, 0x30, 0x33, 0x30, 0x30, 0x30, 0x30, 0x30, 0x30, 0x30, 0x30, 0x34, 0x34, 0x0D, 0x0A]

/-- E2: `":010300000002ABC9\r\n"`. -/
def frameE2 : List Byte :=
  str [0x3A, 0x30, 0x31, 0x30, 0x33, 0x30, 0x30, 0x30, 0x30, 0x30, 0x30, 0x30, 0x32, 0x41, 0x42, 0x43, 0x39, 0x0D, 0x0A]

/-- E3: `":010300000002\r\n5D\r\n"`. -/
def frameE3 : List Byte :=
  str [0x3A, 0x30, 0x31, 0x30, 0x33, 0x30, 0x30, 0x30, 0x30, 0x30, 0x30, 0x30, 0x32, 0x0D, 0x0A, 0x35, 0x44, 0x0D, 0x0A]

/-- T1 of §2.7. -/
def frameT1 : List Byte := str [0x01, 0x03, 0x02, 0x00, 0x2A, 0x39, 0x9B]

/-- T4. -/
def frameT4 : List Byte := str [0x01, 0x10, 0x00, 0x10, 0x00, 0x02, 0x40, 0x0D]

/-- The record of T1. -/
def recordT1 : FrameRec :=
  { kind := .rtuRead, addr := 0x01#16, func := 0x03#16, start := 0#32, len := 2#32, ck := 0x9B39#16,
    data := some (str [0x00, 0x2A]) }

/-- The record of E2 (vector A9). -/
def recordE2 : FrameRec :=
  { kind := .ascii, addr := 0x3130#16, func := 0x3330#16, start := 0x30303030#32, len := 2#32, ck := 0xC9#16,
    data := some (str [0x41, 0x42]) }

/-- The synchronizer on, with `CTRL = c` and a partial frame in `RXB`. -/
def listening (c : BitVec 3) (rx : List Byte) : State := { State.reset with ctrl := c, rxb := rx }

/-- The reset state of an engine built with `UNINIT_READ = draw`. -/
def drawing : State := { State.reset with cfg := { Config.defaultParams with uninitRead := .draw } }

/-- A state in the middle of a run: a frame held in `FRP` and acknowledged, another one half received. -/
def busy : State :=
  { holding 0xC000 (str [0x00, 0x2A]) with
    ctrl := 0b010#3, rxb := frameE2.take 14, frKind := 2#2, frAddr := 0x01#16, frFunc := 0x03#16, frLen := 2#32,
    frCksum := 0x9B39#16, cntOk := 1#32 }

/-! ## WellFormed refuses -/

theorem test_refuses_misaligned_read16 : Instr.wellFormed (.bufRead .tx 0x0001#14 .w16) = false := by decide +kernel
theorem test_refuses_misaligned_read32 : Instr.wellFormed (.bufRead .frp 0x0002#14 .w32) = false := by decide +kernel
theorem test_refuses_misaligned_write : Instr.wellFormed (.srcWrite 0x3FFF#14 .w16 0x0000#32) = false := by decide +kernel
theorem test_refuses_wide_data8 : Instr.wellFormed (.srcWrite 0x0000#14 .w8 0x100#32) = false := by decide +kernel
theorem test_refuses_wide_data16 : Instr.wellFormed (.srcWrite 0x0000#14 .w16 0x10000#32) = false := by decide +kernel

/-! ## Decoding (R111, R115, R125), each word written out -/

theorem test_decode_control_and_checksum_commands :
    decode ⟨.write, .w32, 0x000C#16, 0x00#32⟩ = .instr .nop ∧
    decode ⟨.write, .w32, 0x000C#16, 0x01#32⟩ = .instr .crcInit ∧
    decode ⟨.write, .w32, 0x000C#16, 0x02#32⟩ = .instr .crcBuf ∧
    decode ⟨.write, .w32, 0x000C#16, 0x03#32⟩ = .instr .addInit ∧
    decode ⟨.write, .w32, 0x000C#16, 0x04#32⟩ = .instr .addBuf ∧
    decode ⟨.write, .w32, 0x000C#16, 0x32#32⟩ = .instr .cntClear ∧
    decode ⟨.write, .w32, 0x000C#16, 0xFFFFFF00#32⟩ = .instr .nop := by decide +kernel

theorem test_decode_codec_and_synchronizer_commands :
    decode ⟨.write, .w32, 0x000C#16, 0x10#32⟩ = .instr .encAscii ∧
    decode ⟨.write, .w32, 0x000C#16, 0x11#32⟩ = .instr .encRtuRd ∧
    decode ⟨.write, .w32, 0x000C#16, 0x12#32⟩ = .instr .encRtuWr ∧
    decode ⟨.write, .w32, 0x000C#16, 0x20#32⟩ = .instr .decAscii ∧
    decode ⟨.write, .w32, 0x000C#16, 0x21#32⟩ = .instr .decRtu ∧
    decode ⟨.write, .w32, 0x000C#16, 0x22#32⟩ = .instr .decAsciiLen ∧
    decode ⟨.write, .w32, 0x000C#16, 0x30#32⟩ = .instr .syncReset ∧
    decode ⟨.write, .w32, 0x000C#16, 0x31#32⟩ = .instr .frameAck := by decide +kernel

theorem test_decode_undefined_opcodes :
    decode ⟨.write, .w32, 0x000C#16, 0x05#32⟩ = .badOp 0x05#8 ∧
    decode ⟨.write, .w32, 0x000C#16, 0x13#32⟩ = .badOp 0x13#8 ∧
    decode ⟨.write, .w32, 0x000C#16, 0x2F#32⟩ = .badOp 0x2F#8 ∧
    decode ⟨.write, .w32, 0x000C#16, 0x33#32⟩ = .badOp 0x33#8 ∧
    decode ⟨.write, .w32, 0x000C#16, 0xFF#32⟩ = .badOp 0xFF#8 := by decide +kernel

theorem test_decode_register_triggers :
    decode ⟨.write, .w32, 0x002C#16, 0x00000101#32⟩ = .instr (.crcByte 0x01#8) ∧
    decode ⟨.write, .w32, 0x0034#16, 0xFFFFFF02#32⟩ = .instr (.addByte 0x02#8) ∧
    decode ⟨.write, .w32, 0x0040#16, 0x1234563A#32⟩ = .instr (.syncPush 0x3A#8) ∧
    decode ⟨.write, .w32, 0x0000#16, 0xFFFFFFFB#32⟩ = .instr (.ctrlWrite 0b011#3) ∧
    decode ⟨.write, .w32, 0x0004#16, 0x00000043#32⟩ = .instr (.statusW1c 0b100001#6) ∧
    decode ⟨.write, .w32, 0x0008#16, 0xFFFFFFC1#32⟩ = .instr (.irqenWrite 0b1000001#7) ∧
    decode ⟨.write, .w32, 0x0010#16, 0x33303130#32⟩ = .instr (.argWrite .arg0 0x33303130#32) ∧
    decode ⟨.write, .w32, 0x001C#16, 0x80000001#32⟩ = .instr (.argWrite .arg3 0x80000001#32) := by decide +kernel

theorem test_decode_reads :
    decode ⟨.read, .w32, 0x0000#16, 0#32⟩ = .instr (.regRead .ctrl) ∧
    decode ⟨.read, .w32, 0x0038#16, 0#32⟩ = .instr (.regRead .addHex) ∧
    decode ⟨.read, .w32, 0x0070#16, 0#32⟩ = .instr (.regRead .cntOvr) ∧
    decode ⟨.read, .w8, 0x4001#16, 0#32⟩ = .instr (.bufRead .src 0x0001#14 .w8) ∧
    decode ⟨.read, .w16, 0x8006#16, 0#32⟩ = .instr (.bufRead .tx 0x0006#14 .w16) ∧
    decode ⟨.read, .w32, 0xFFFC#16, 0#32⟩ = .instr (.bufRead .frp 0x3FFC#14 .w32) := by decide +kernel

theorem test_decode_src_writes :
    decode ⟨.write, .w32, 0x4000#16, 0x33303130#32⟩ = .instr (.srcWrite 0x0000#14 .w32 0x33303130#32) ∧
    decode ⟨.write, .w16, 0x7FFE#16, 0x12345678#32⟩ = .instr (.srcWrite 0x3FFE#14 .w16 0x5678#32) ∧
    decode ⟨.write, .w8, 0x4003#16, 0x12345678#32⟩ = .instr (.srcWrite 0x0003#14 .w8 0x78#32) := by decide +kernel

/-- B10 to B14, and the five cases of R321 where they meet. -/
theorem test_decode_bus_errors :
    decode ⟨.write, .w16, 0x0000#16, 1#32⟩ = .busError .registerShape ∧
    decode ⟨.read, .w32, 0x00FE#16, 0#32⟩ = .busError .registerShape ∧
    decode ⟨.read, .w16, 0x4001#16, 0#32⟩ = .busError .misalignedBuffer ∧
    decode ⟨.write, .w32, 0x8002#16, 0#32⟩ = .busError .misalignedBuffer ∧
    decode ⟨.read, .w32, 0x0074#16, 0#32⟩ = .busError .reservedOffset ∧
    decode ⟨.write, .w32, 0x00FC#16, 0#32⟩ = .busError .reservedOffset ∧
    decode ⟨.read, .w8, 0x0101#16, 0#32⟩ = .busError .reservedOffset ∧
    decode ⟨.read, .w32, 0x3FFC#16, 0#32⟩ = .busError .reservedOffset ∧
    decode ⟨.write, .w32, 0x0020#16, 0#32⟩ = .busError .readOnlyRegister ∧
    decode ⟨.write, .w32, 0x0070#16, 0#32⟩ = .busError .readOnlyRegister ∧
    decode ⟨.write, .w8, 0x8000#16, 0#32⟩ = .busError .readOnlyBuffer ∧
    decode ⟨.write, .w32, 0xFFFC#16, 0#32⟩ = .busError .readOnlyBuffer := by decide +kernel

theorem test_table_words :
    decodeTableWord 8 0x01 = some .crcInit ∧ decodeTableWord 8 0x05 = none ∧
    decodeTableWord 16 0x002C = some (.crcByte 0x00#8) ∧
    decodeTableWord 16 0x0010 = some (.argWrite .arg0 0#32) ∧
    decodeTableWord 16 0x0028 = some (.regRead .crcAcc) ∧
    decodeTableWord 16 0x8000 = some (.bufRead .tx 0#14 .w8) ∧
    decodeTableWord 16 0x4000 = some (.srcWrite 0#14 .w8 0#32) := by decide +kernel

/-- The word placed by `withFetchWord` is the next one run. -/
theorem test_fetch_word :
    after (step (State.reset.withFetchWord 8 0x03)) (fun t => (t.responses, t.pending)) = some ([.ok], []) := by decide +kernel

/-! ## Checksum units -/

/-- X4. -/
theorem test_crcByte : after (exec (.crcByte 0x01#8) State.reset) (·.crcAcc) = some 0x807E#16 := by decide +kernel

/-- X2: a zero byte still runs the eight iterations. -/
theorem test_crcByte_zero : after (exec (.crcByte 0x00#8) State.reset) (·.crcAcc) = some 0x40BF#16 := by decide +kernel

/-- R153's example. -/
theorem test_crcInit :
    after (exec .crcInit { State.reset with crcAcc := 0x0A84#16 }) (·.crcAcc) = some 0xFFFF#16 := by decide +kernel

/-- X5, and R155's example. -/
theorem test_crcBuf :
    after (exec .crcBuf (given (str [0x01, 0x03, 0x00, 0x00, 0x00, 0x01]))) (fun t => (t.crcAcc, t.reslen)) =
      some (0x0A84#16, 6#32) := by decide +kernel

/-- B3. -/
theorem test_crcBuf_range :
    after (exec .crcBuf { State.reset with arg2 := 1#32, arg3 := 16384#32 })
      (fun t => (t.result, t.status, t.crcAcc)) = some (6#3, 0x40#7, 0xFFFF#16) := by decide +kernel

/-- R157's example. -/
theorem test_addInit :
    after (exec .addInit { State.reset with addAcc := 0xA5#8 }) (fun t => (t.addAcc, t.addHex)) =
      some (0x00#8, 0x3030#32) := by decide +kernel

/-- R158's example. -/
theorem test_addByte :
    after (exec (.addByte 0x02#8) { State.reset with addAcc := 0xFF#8 }) (·.addAcc) = some 0x01#8 := by decide +kernel

/-- M4. -/
theorem test_addBuf :
    after (exec .addBuf (given (str [0x30, 0x31, 0x30, 0x33]))) (fun t => (t.addAcc, t.addHex, t.reslen)) =
      some (0xC4#8, 0x3443#32, 4#32) := by decide +kernel

/-- B17: an unwritten byte. -/
theorem test_addBuf_unwritten :
    faultOf (exec .addBuf { State.reset with arg2 := 1#32 }) = some (.unwrittenByte 0x4000) := by decide +kernel

/-! ## ASCII codec -/

/-- E1. -/
theorem test_encAscii :
    after (exec .encAscii { State.reset with arg0 := 0x33303130#32, arg1 := 0x30303030#32 })
      (fun t => (bytesAt t 0x8000 18, t.reslen)) = some (frameE1.map some ++ [none], 17#32) := by decide +kernel

/-- E5. -/
theorem test_encAscii_too_long :
    after (exec .encAscii { State.reset with arg2 := 10000#32 }) (fun t => (t.result, t.status, t.mem)) =
      some (6#3, 0x40#7, []) := by decide +kernel

/-- R186's example. -/
theorem test_decAscii :
    after (exec .decAscii (given frameE2)) (fun t =>
      (t.result, t.reslen, held t, bytesAt t 0xC000 3)) =
      some (0#3, 19#32, ⟨1#2, 0x3130#16, 0x3330#16, 0x30303030#32, 2#32, 0xC9#16⟩, [some 0x41#8, some 0x42#8, none]) := by
  decide +kernel

/-- A14: cut at the payload's pair. -/
theorem test_decAscii_cut :
    after (exec .decAscii (given frameE3)) (fun t => (t.result, t.reslen, t.status, t.cntCkerr)) =
      some (2#3, 15#32, 0x04#7, 1#32) := by decide +kernel

/-- R187's example. -/
theorem test_decAsciiLen :
    after (exec .decAsciiLen (given frameE3)) (fun t => (t.result, t.reslen, t.frCksum, bytesAt t 0xC000 2)) =
      some (0#3, 19#32, 0x5D#16, [some 0x0D#8, some 0x0A#8]) := by decide +kernel

/-- A12: fewer than 13 bytes. -/
theorem test_decAsciiLen_more :
    after (exec .decAsciiLen (given (frameE1.take 5))) (fun t => (t.result, t.reslen, t.status)) =
      some (1#3, 0#32, 0x00#7) := by decide +kernel

/-- A1 to A10, the first check that decides. -/
theorem test_decodeBody :
    decodeBody [] = .invalid .truncated ∧ decodeBody (str [0x34]) = .invalid .truncated ∧
    decodeBody (str [0x30, 0x31, 0x30, 0x33, 0x30, 0x30, 0x30, 0x30, 0x30, 0x30, 0x30, 0x30, 0x30, 0x47]) =
      .invalid .malformed ∧
    decodeBody (str [0x30, 0x31, 0x30, 0x33, 0x30, 0x30, 0x30, 0x30, 0x30, 0x30, 0x30, 0x32, 0x41, 0x42, 0x38, 0x39]) =
      .invalid .checksumMismatch ∧
    decodeBody (str [0x30, 0x31, 0x30, 0x33, 0x43, 0x34]) = .invalid .truncated ∧
    decodeBody (str [0x30, 0x31, 0x30, 0x33, 0x30, 0x30, 0x30, 0x30, 0x30, 0x30, 0x30, 0x58, 0x36, 0x43]) =
      .invalid .malformed ∧
    decodeBody (str [0x30, 0x31, 0x30, 0x33, 0x30, 0x30, 0x30, 0x30, 0x30, 0x30, 0x30, 0x33, 0x41, 0x42, 0x43, 0x41]) =
      .invalid .truncated ∧
    decodeBody (str [0x30, 0x31, 0x30, 0x33, 0x30, 0x30, 0x30, 0x30, 0x30, 0x30, 0x30, 0x31, 0x41, 0x42, 0x43, 0x38]) =
      .invalid .malformed ∧
    decodeBody (str [0x30, 0x31, 0x30, 0x33, 0x30, 0x30, 0x30, 0x30, 0x30, 0x30, 0x30, 0x32, 0x41, 0x42, 0x43, 0x39]) =
      .frame recordE2 ∧
    decodeBody (str [0x30, 0x31, 0x30, 0x33, 0x30, 0x30, 0x30, 0x30, 0x30, 0x30, 0x30, 0x32, 0x41, 0x42, 0x63, 0x39]) =
      .frame recordE2 := by decide +kernel

/-! ## RTU codec -/

/-- W1. -/
theorem test_encRtuRd :
    after (exec .encRtuRd { State.reset with arg0 := 0x01#32, arg2 := 0x0001#32 })
      (fun t => (bytesAt t 0x8000 9, t.reslen)) =
      some ((str [0x01, 0x03, 0x00, 0x00, 0x00, 0x01, 0x84, 0x0A]).map some ++ [none], 8#32) := by decide +kernel

/-- W4: every count is encoded. -/
theorem test_encRtuRd_any_count :
    after (exec .encRtuRd { State.reset with arg0 := 0xFF#32, arg1 := 0xFFFF#32, arg2 := 0xFFFF#32 })
      (fun t => bytesAt t 0x8000 8) =
      some ((str [0xFF, 0x03, 0xFF, 0xFF, 0xFF, 0xFF, 0x51, 0x80]).map some) := by decide +kernel

/-- W5. -/
theorem test_encRtuWr :
    after (exec .encRtuWr { given (str [0x00, 0x0A, 0x01, 0x02]) with
      arg0 := 0x01#32, arg1 := 0x0010#32, arg2 := 2#32 }) (fun t => (bytesAt t 0x8000 13, t.reslen)) =
      some ((str [0x01, 0x10, 0x00, 0x10, 0x00, 0x02, 0x04, 0x00, 0x0A, 0x01, 0x02, 0x52, 0xF0]).map some, 13#32) := by
  decide +kernel

/-- W8. -/
theorem test_encRtuWr_too_many :
    after (exec .encRtuWr { State.reset with arg2 := 128#32 }) (fun t => (t.result, t.mem)) = some (6#3, []) := by
  decide +kernel

/-- R225's example. -/
theorem test_decRtu :
    after (exec .decRtu (given frameT1)) (fun t =>
      (t.result, t.reslen, held t, bytesAt t 0xC000 2)) =
      some (0#3, 7#32, ⟨2#2, 0x01#16, 0x03#16, 0#32, 2#32, 0x9B39#16⟩, [some 0x00#8, some 0x2A#8]) := by decide +kernel

/-- T1 again with a frame held: the overrun of R326. -/
theorem test_decRtu_overrun :
    after (exec .decRtu { given frameT1 with status := 0x01#7 }) (fun t =>
      (t.result, t.reslen, t.status, t.cntOvr, t.frKind)) = some (5#3, 7#32, 0x03#7, 1#32, 0#2) := by decide +kernel

/-- T4 and T6 to T14. -/
theorem test_decodeRtu :
    decodeRtu frameT4 = .frame
      { kind := .rtuWrite, addr := 0x01#16, func := 0x10#16, start := 0x0010#32, len := 2#32, ck := 0x0D40#16,
        data := none } ∧
    decodeRtu (str [0x01, 0x03, 0x02]) = .invalid .truncated ∧
    decodeRtu (str [0x01, 0x03, 0x02, 0x00, 0x2A, 0x39, 0x9A]) = .invalid .checksumMismatch ∧
    decodeRtu (str [0x01, 0x83, 0x02, 0xC0, 0xF1]) = .invalid .malformed ∧
    decodeRtu (str [0x01, 0x06, 0x80, 0x22]) = .invalid .malformed ∧
    decodeRtu (str [0x01, 0x03, 0x40, 0x21]) = .invalid .truncated ∧
    decodeRtu (str [0x01, 0x03, 0x01, 0x00, 0x2A, 0xC9, 0x9B]) = .invalid .malformed ∧
    decodeRtu (str [0x01, 0x10, 0x00, 0x10, 0x00, 0x10, 0xC0]) = .invalid .truncated ∧
    decodeRtu (str [0x01, 0x10, 0x00, 0x10, 0x00, 0x02, 0x00, 0x0C, 0xF0]) = .invalid .malformed := by decide +kernel

/-! ## Synchronizer -/

/-- The last byte of Y5's first frame. -/
theorem test_syncPush_delimiter :
    after (exec (.syncPush 0x0A#8) (listening 0b010#3 (frameE2.take 18))) (fun t =>
      (t.status, held t, t.rxb, bytesAt t 0xC000 2)) =
      some (0x01#7, ⟨1#2, 0x3130#16, 0x3330#16, 0x30303030#32, 2#32, 0xC9#16⟩, [], [some 0x41#8, some 0x42#8]) := by decide +kernel

/-- The last byte of Y10. -/
theorem test_syncPush_rtu :
    after (exec (.syncPush 0x9B#8) (listening 0b011#3 (frameT1.take 6))) (fun t =>
      (t.status, held t, t.rxb, t.cntOk)) =
      some (0x01#7, ⟨2#2, 0x01#16, 0x03#16, 0#32, 2#32, 0x9B39#16⟩, [], 1#32) := by decide +kernel

/-- R259: the held frame stays. -/
theorem test_frameAck :
    after (exec .frameAck { State.reset with status := 0x03#7, frKind := 1#2 }) (fun t => (t.status, t.frKind)) =
      some (0x02#7, 1#2) := by decide +kernel

/-- Y18. -/
theorem test_syncReset :
    after (exec .syncReset (listening 0b010#3 (frameE1.take 5))) (fun t => (t.rxb, t.result, t.ctrl)) =
      some ([], 0#3, 0b010#3) := by decide +kernel

/-! ## Registers, control commands, buffers and the bus -/

/-- R291's example. -/
theorem test_ctrlWrite :
    after (exec (.ctrlWrite 0b011#3) (listening 0b010#3 (frameE1.take 7))) (fun t => (t.ctrl, t.rxb)) =
      some (0b011#3, []) := by decide +kernel

/-- R292's example. -/
theorem test_statusW1c :
    after (exec (.statusW1c 0b111111#6) { State.reset with status := 0x15#7 }) (·.status) = some 0x01#7 := by decide +kernel

/-- R293's example. -/
theorem test_irqenWrite :
    after (exec (.irqenWrite 0x04#7) { State.reset with status := 0x04#7 }) State.irq = some true := by decide +kernel

/-- R294's example. -/
theorem test_argWrite :
    after (exec (.argWrite .arg2 0x12345678#32) State.reset) (fun t => (t.arg2, t.arg1)) =
      some (0x12345678#32, 0#32) := by decide +kernel

/-- R290's examples and B8. -/
theorem test_regRead :
    after (exec (.regRead .crcAcc) State.reset) (·.responses) = some [.data 0x0000FFFF#32] ∧
    after (exec (.regRead .addHex) State.reset) (·.responses) = some [.data 0x00003030#32] ∧
    after (exec (.regRead .rxpush) State.reset) (·.responses) = some [.data 0#32] := by decide +kernel

/-- R296's example. -/
theorem test_nop :
    after (exec .nop { State.reset with result := 7#3, reslen := 9#32 }) (fun t => (t.result, t.reslen)) =
      some (0#3, 0#32) := by decide +kernel

/-- R297's example. -/
theorem test_cntClear :
    after (exec .cntClear { State.reset with cntCkerr := 3#32, status := 0x04#7 }) (fun t => (t.cntCkerr, t.status)) =
      some (0#32, 0x04#7) := by decide +kernel

/-- R298's example. -/
theorem test_bufRead :
    after (exec (.bufRead .tx 0x0006#14 .w16) (holding 0x8000 (str [0x01, 0x03, 0x00, 0x00, 0x00, 0x01, 0x84, 0x0A])))
      (·.responses) = some [.data 0x0A84#32] ∧
    after (exec (.bufRead .tx 0x0000#14 .w32) (holding 0x8000 (str [0x01, 0x03, 0x00, 0x00, 0x00, 0x01, 0x84, 0x0A])))
      (·.responses) = some [.data 0x00000301#32] := by decide +kernel

/-- R299's example. -/
theorem test_srcWrite :
    after (exec (.srcWrite 0x0000#14 .w32 0x33303130#32) State.reset) (fun t => bytesAt t 0x4000 5) =
      some [some 0x30#8, some 0x31#8, some 0x30#8, some 0x33#8, none] := by decide +kernel

/-- B1, at the bus. -/
theorem test_step_undefined_opcode :
    after (step (asked .write .w32 0x0C 0x05#32)) (fun t => (t.result, t.reslen, t.status, t.responses)) =
      some (7#3, 0#32, 0x40#7, [.ok]) := by decide +kernel

/-- B12, at the bus. -/
theorem test_step_bus_error :
    after (step (asked .write .w16 0x00 0x01#32)) (fun t => (t.ctrl, t.responses, t.pending)) =
      some (0#3, [.slverr], []) := by decide +kernel

/-- B15 under `fault`. -/
theorem test_step_unwritten_read : faultOf (step (asked .read .w8 0x8000 0#32)) = some (.unwrittenByte 0x8000) := by
  decide +kernel

/-! ## Witnesses: values that meet the hypotheses of each statement -/

/-- `asked` at the default `BASE` is a next access in the statements' sense. -/
theorem nextAccess_asked (d : Dir) (w : Width) (o : Half) (v : Word) :
    NextAccess (asked d w o.toNat v) ⟨d, w, o, v⟩ [] := by
  refine ⟨_, rfl, ?_, rfl⟩
  have := o.isLt
  show engineOffset 0 o.toNat = some o
  unfold engineOffset
  rw [if_pos ⟨by omega, by omega⟩]
  simp

theorem witness_DecodeOfEncodeIsTheInstruction :
    Instr.wellFormed (.bufRead .frp 0x3FFC#14 .w32) = true ∧ Instr.wellFormed (.srcWrite 0x3FFF#14 .w8 0xFF#32) = true ∧
    Instr.wellFormed (.srcWrite 0x3FFE#14 .w16 0xFFFF#32) = true ∧ Instr.wellFormed .nop = true := by decide +kernel

theorem witness_AnAccessIsItsEncodingButForIgnoredBits :
    decode ⟨.write, .w32, 0x000C#16, 0xFFFFFF32#32⟩ = .instr .cntClear ∧
    decode ⟨.read, .w32, 0xFFFC#16, 0x12345678#32⟩ = .instr (.bufRead .frp 0x3FFC#14 .w32) := by decide +kernel

/-- The ends of the four ranges, and the opcodes beside them. -/
theorem witness_UndefinedOpcodeEndsWithBadOp :
    (∀ v ∈ [0x05#32, 0x0F#32, 0x13#32, 0x1F#32, 0x23#32, 0x2F#32, 0x33#32, 0xFF#32],
      ∃ op : Nat, op = (v.extractLsb' 0 8).toNat ∧
        (0x05 ≤ op ∧ op ≤ 0x0F ∨ 0x13 ≤ op ∧ op ≤ 0x1F ∨ 0x23 ≤ op ∧ op ≤ 0x2F ∨ 0x33 ≤ op)) ∧
    (∀ v ∈ [0x00#32, 0x04#32, 0x10#32, 0x12#32, 0x20#32, 0x22#32, 0x30#32, 0x32#32],
      ∃ op : Nat, op = (v.extractLsb' 0 8).toNat ∧
        ¬ (0x05 ≤ op ∧ op ≤ 0x0F ∨ 0x13 ≤ op ∧ op ≤ 0x1F ∨ 0x23 ≤ op ∧ op ≤ 0x2F ∨ 0x33 ≤ op)) ∧
    NextAccess (asked .write .w32 0x0C 0x13#32) ⟨.write, .w32, 0x00C#16, 0x13#32⟩ [] :=
  ⟨by simp, by simp, nextAccess_asked _ _ 0x00C#16 _⟩

theorem witness_BusErrorExactlyInTheFiveCases :
    NextAccess (asked .write .w32 0x70 0#32) ⟨.write, .w32, 0x0070#16, 0#32⟩ [] ∧
    decode ⟨.write, .w32, 0x0070#16, 0#32⟩ = .busError .readOnlyRegister :=
  ⟨nextAccess_asked _ _ 0x0070#16 _, by decide +kernel⟩

/-- The first offset of the window, the last one, and the addresses just outside a window at `BASE = 0x10000`. -/
theorem witness_StepRunsTheDecodedInstruction :
    (NextAccess (asked .read .w8 0xFFFF 0#32) ⟨.read, .w8, 0xFFFF#16, 0#32⟩ [] ∧
      decode ⟨.read, .w8, 0xFFFF#16, 0#32⟩ = .instr (.bufRead .frp 0x3FFF#14 .w8)) ∧
    State.reset.pending = [] ∧
    (∃ s : State, s.cfg.Legal ∧ ∃ h : HostAccess, s.pending = [.access h] ∧ h.addr < s.cfg.base) ∧
    (∃ s : State, ∃ h : HostAccess, s.pending = [.access h] ∧ s.cfg.base + 0x10000 ≤ h.addr) ∧
    (∃ s : State, ∃ h : HostAccess, s.pending = [.access h] ∧ h.addr = s.cfg.base + (0x0000#16).toNat) ∧
    ∃ s : State, s.pending = [.reset] :=
  ⟨⟨nextAccess_asked _ _ 0xFFFF#16 _, by decide +kernel⟩, rfl,
    ⟨{ asked .read .w8 0xFFFF 0#32 with cfg := { Config.defaultParams with base := 0x10000 } }, by decide +kernel, _, rfl,
      by decide +kernel⟩,
    ⟨asked .read .w8 0x10000 0#32, _, rfl, by decide +kernel⟩,
    ⟨asked .read .w32 0x0 0#32, _, rfl, by decide +kernel⟩, ⟨{ State.reset with pending := [.reset] }, rfl⟩⟩

theorem witness_ResetSetsEveryPieceOfState :
    ({ busy with pending := [.reset] } : State).pending = [.reset] ∧
    faultOf (step (asked .read .w8 0x8000 0#32)) = some (.unwrittenByte 0x8000) := by decide +kernel

theorem witness_RegistersReadTheirResetValues :
    ({ busy with pending := [.reset] } : State).pending = [.reset] ∧
    (after (step { busy with pending := [.reset] }) (·.crcAcc)).isSome = true := by decide +kernel

/-- A write, a read and a refused access. -/
theorem witness_EachAccessGivesOneResponse :
    (NextAccess (asked .write .w32 0x2C 1#32) ⟨.write, .w32, 0x002C#16, 1#32⟩ [] ∧
      (after (step (asked .write .w32 0x2C 1#32)) (·.responses)) = some [.ok]) ∧
    (NextAccess (asked .read .w32 0x28 0#32) ⟨.read, .w32, 0x0028#16, 0#32⟩ [] ∧
      (after (step (asked .read .w32 0x28 0#32)) (·.responses)) = some [.data 0xFFFF#32]) ∧
    (NextAccess (asked .read .w8 0x28 0#32) ⟨.read, .w8, 0x0028#16, 0#32⟩ [] ∧
      (after (step (asked .read .w8 0x28 0#32)) (·.responses)) = some [.slverr]) :=
  ⟨⟨nextAccess_asked _ _ 0x002C#16 _, by decide +kernel⟩, ⟨nextAccess_asked _ _ 0x0028#16 _, by decide +kernel⟩,
    ⟨nextAccess_asked _ _ 0x0028#16 _, by decide +kernel⟩⟩

/-- A written string is readable; so is anything under `draw`; the empty range at the very end of `SRC` is both. -/
theorem witness_BufferChecksumCommands :
    (0 + 4 ≤ 16384 ∧ Written (given (str [1, 2, 3, 4])) (0x4000 + 0) 4) ∧
    (∃ s : State, s.arg3.toNat + s.arg2.toNat = 16384 ∧ s.arg2 = 0#32 ∧ Written s (0x4000 + s.arg3.toNat) 0) ∧
    ∃ s : State, s.arg3.toNat + s.arg2.toNat = 16384 ∧ s.arg3 = 0#32 ∧ Readable s 0x4000 s.arg2.toNat :=
  ⟨by decide +kernel, ⟨{ State.reset with arg3 := 16384#32 }, rfl, rfl, nofun⟩,
    ⟨{ drawing with arg2 := 16384#32 }, rfl, rfl, .inl rfl⟩⟩

theorem witness_AdditiveChecksumIsTheSumInAnyOrder : (str [1, 2, 3]).Perm (str [3, 2, 1]) := by decide +kernel

/-- An encoder and a delivering instruction that go on, and one that faults. -/
theorem witness_CodecsNeverUseTheAccumulators :
    (isEncoder .encRtuRd = true ∧ (after (exec .encRtuRd State.reset) (·.reslen)).isSome = true) ∧
    (canDeliver .decRtu = true ∧ (after (exec .decRtu (given frameT1)) (·.reslen)).isSome = true) ∧
    faultOf (exec .decAscii { State.reset with arg2 := 1#32 }) = some (.unwrittenByte 0x4000) := by decide +kernel

/-- The empty and the longest payload. -/
theorem witness_EncAsciiWritesTheFrame :
    (∃ s : State, s.arg2 = 0#32 ∧ s.arg3.toNat + s.arg2.toNat = 16384 ∧ Written s (0x4000 + s.arg3.toNat) 0) ∧
    ∃ s : State, s.arg2.toNat = 9999 ∧ s.arg3.toNat + s.arg2.toNat = 16384 ∧
      Readable s (0x4000 + s.arg3.toNat) s.arg2.toNat :=
  ⟨⟨{ State.reset with arg3 := 16384#32 }, rfl, rfl, nofun⟩,
    ⟨{ drawing with arg2 := 9999#32, arg3 := 6385#32 }, rfl, rfl, .inl rfl⟩⟩

theorem witness_AsciiFrameLayout :
    (str [0x30, 0x31]).length = 2 ∧ (str [0x30, 0x30, 0x30, 0x30]).length = 4 ∧ ([] : List Byte).length ≤ 9999 ∧
    (List.replicate 9999 0x41#8).length ≤ 9999 := ⟨rfl, rfl, by decide, List.length_replicate.le⟩

/-- What the clauses of the `DecodeBody` statement ask of a body, check by check. -/
def bodyChecks (body : List Byte) : Nat × Bool × Bool × Bool × Nat :=
  (body.length, isHex (body.getD (body.length - 2) 0) && isHex (body.getD (body.length - 1) 0),
    additive8 (body.take (body.length - 2)) ==
      16#8 * hexVal (body.getD (body.length - 2) 0) + hexVal (body.getD (body.length - 1) 0),
    isDec (body.getD 8 0) && isDec (body.getD 9 0) && isDec (body.getD 10 0) && isDec (body.getD 11 0),
    dec4Val (body.getD 8 0) (body.getD 9 0) (body.getD 10 0) (body.getD 11 0))

/-- One body for each clause: A2 (one byte), A3, A4, A5 and the two bytes `"00"`, A6, A7, A8, A9. -/
theorem witness_DecodeBodyChecksInOrder :
    bodyChecks (str [0x34]) = (1, true, false, false, bodyChecks (str [0x34]) |>.2.2.2.2) ∧
    (bodyChecks (str [0x30, 0x31, 0x30, 0x33, 0x30, 0x30, 0x30, 0x30, 0x30, 0x30, 0x30, 0x30, 0x30, 0x47])).2.1 = false ∧
    bodyChecks (str [0x30, 0x31, 0x30, 0x33, 0x30, 0x30, 0x30, 0x30, 0x30, 0x30, 0x30, 0x32, 0x41, 0x42, 0x38, 0x39]) =
      (16, true, false, true, 2) ∧
    ((bodyChecks (str [0x30, 0x30])).2.1 = true ∧ (bodyChecks (str [0x30, 0x30])).2.2.1 = true) ∧
    (bodyChecks (str [0x30, 0x31, 0x30, 0x33, 0x43, 0x34])).2.2.1 = true ∧
    (bodyChecks (str [0x30, 0x31, 0x30, 0x33, 0x30, 0x30, 0x30, 0x30, 0x30, 0x30, 0x30, 0x58, 0x36, 0x43])).2.2.2.1 =
      false ∧
    bodyChecks (str [0x30, 0x31, 0x30, 0x33, 0x30, 0x30, 0x30, 0x30, 0x30, 0x30, 0x30, 0x33, 0x41, 0x42, 0x43, 0x41]) =
      (16, true, true, true, 3) ∧
    bodyChecks (str [0x30, 0x31, 0x30, 0x33, 0x30, 0x30, 0x30, 0x30, 0x30, 0x30, 0x30, 0x31, 0x41, 0x42, 0x43, 0x38]) =
      (16, true, true, true, 1) ∧
    bodyChecks (str [0x30, 0x31, 0x30, 0x33, 0x30, 0x30, 0x30, 0x30, 0x30, 0x30, 0x30, 0x32, 0x41, 0x42, 0x43, 0x39]) =
      (16, true, true, true, 2) := by decide +kernel

/-- No header; a header without a tail, with one (A18's `HDR CR LF`, the tail at `h + 1`), and garbage before it. -/
theorem witness_DecodeBufferScansForTheDelimiters :
    0x3A#8 ∉ str [0x61, 0x62, 0x63] ∧
    ((str [0x3A, 0x30])[0]? = some 0x3A#8 ∧ findTail (str [0x30]) = none) ∧
    ((str [0x3A, 0x0D, 0x0A])[0]? = some 0x3A#8 ∧ (str [0x3A, 0x0D, 0x0A])[1]? = some 0x0D#8 ∧
      (str [0x3A, 0x0D, 0x0A])[2]? = some 0x0A#8) ∧
    ((str [0x78, 0x3A, 0x30, 0x0D, 0x0A])[1]? = some 0x3A#8 ∧ (str [0x78, 0x3A, 0x30, 0x0D, 0x0A])[0]? ≠ some 0x3A#8 ∧
      (str [0x78, 0x3A, 0x30, 0x0D, 0x0A])[3]? = some 0x0D#8 ∧
      (str [0x78, 0x3A, 0x30, 0x0D, 0x0A])[4]? = some 0x0A#8) := by decide +kernel

/-- A11, A12, A16, E2 without its last byte, A17 and E3, each with its header at index 0. -/
theorem witness_DecodeBufferLenFramesByDeclaredLength :
    0x3A#8 ∉ str [0x61, 0x62, 0x63] ∧ (frameE1.take 12).length < 0 + 13 ∧
    (frameE2.set 12 0x58#8).length = 19 ∧ isDec ((frameE2.set 12 0x58#8).getD (0 + 12) 0) = false ∧
    (isDec4 frameE2 (0 + 9) = true ∧ dec4At frameE2 (0 + 9) = 2 ∧ (frameE2.take 18).length < 0 + 2 + 17) ∧
    ((frameE2.set 17 0x78#8).length = 0 + 2 + 17 ∧ (frameE2.set 17 0x78#8)[0 + 2 + 15]? ≠ some 0x0D#8) ∧
    (frameE3[0]? = some 0x3A#8 ∧ dec4At frameE3 (0 + 9) = 2 ∧ frameE3[0 + 2 + 15]? = some 0x0D#8 ∧
      frameE3[0 + 2 + 16]? = some 0x0A#8) := by decide +kernel

/-- A payload without a pair, one with a pair (E3), and a pair across two fields. -/
theorem witness_AsciiRoundTrip :
    (0x3A#8 ≠ 0x0D#8 ∧ 0x3A#8 ≠ 0x0A#8 ∧ (str [0x41, 0x42]).length ≤ 9999) ∧
    (NoTail (str [0x30, 0x31, 0x30, 0x33, 0x30, 0x30, 0x30, 0x30]) ∧ NoTail (str [0x41, 0x42])) ∧
    ¬ NoTail (str [0x0D, 0x0A]) ∧ ¬ NoTail (str [0x30, 0x0D, 0x0A, 0x33, 0x30, 0x30, 0x30, 0x30]) ∧
    (frameE3[13]? = some 0x0D#8 ∧ frameE3[13 + 1]? = some 0x0A#8) := by decide +kernel

theorem witness_AsciiDecodeCommandsDeliver :
    (given frameE2).arg3.toNat + (given frameE2).arg2.toNat ≤ 16384 ∧
    Written (given frameE2) (0x4000 + (given frameE2).arg3.toNat) (given frameE2).arg2.toNat := by decide +kernel

/-- No register and 127 registers. -/
theorem witness_EncRtuWrWritesTheRequest :
    (∃ s : State, (s.arg2.extractLsb' 0 16).toNat = 0 ∧ s.arg3.toNat + 2 * 0 = 16384 ∧
      Written s (0x4000 + s.arg3.toNat) (2 * 0)) ∧
    ∃ s : State, (s.arg2.extractLsb' 0 16).toNat = 127 ∧ s.arg3.toNat + 2 * 127 = 16384 ∧
      Readable s (0x4000 + s.arg3.toNat) (2 * 127) :=
  ⟨⟨{ State.reset with arg2 := 0xFFFF0000#32, arg3 := 16384#32 }, rfl, rfl, nofun⟩,
    ⟨{ drawing with arg2 := 127#32, arg3 := 16130#32 }, rfl, rfl, .inl rfl⟩⟩

/-- What the clauses of the `DecodeRTU` statement ask of a frame: its length, whether its CRC is right, its function
code and its byte 2. -/
def rtuChecks (fr : List Byte) : Nat × Bool × Byte × Nat :=
  (fr.length, crc16Modbus (fr.take (fr.length - 2)) == fr.getD (fr.length - 1) 0 ++ fr.getD (fr.length - 2) 0,
    fr.getD 1 0, (fr.getD 2 0).toNat)

/-- One frame for each clause: T6, T7, T10, T11, T12, T1, T13, T14, T4, T8. -/
theorem witness_DecodeRtuChecksInOrder :
    (str [0x01, 0x03, 0x02]).length < 4 ∧
    rtuChecks (str [0x01, 0x03, 0x02, 0x00, 0x2A, 0x39, 0x9A]) = (7, false, 0x03#8, 2) ∧
    rtuChecks (str [0x01, 0x03, 0x40, 0x21]) = (4, true, 0x03#8, 0x40) ∧
    (rtuChecks (str [0x01, 0x03, 0x01, 0x00, 0x2A, 0xC9, 0x9B])) = (7, true, 0x03#8, 1) ∧
    rtuChecks frameT1 = (7, true, 0x03#8, 2) ∧
    rtuChecks (str [0x01, 0x10, 0x00, 0x10, 0x00, 0x10, 0xC0]) = (7, true, 0x10#8, 0) ∧
    rtuChecks (str [0x01, 0x10, 0x00, 0x10, 0x00, 0x02, 0x00, 0x0C, 0xF0]) = (9, true, 0x10#8, 0) ∧
    rtuChecks frameT4 = (8, true, 0x10#8, 0) ∧
    rtuChecks (str [0x01, 0x83, 0x02, 0xC0, 0xF1]) = (5, true, 0x83#8, 2) := by decide +kernel

theorem witness_DecRtuDelivers :
    (given frameT1).arg3.toNat + (given frameT1).arg2.toNat ≤ 16384 ∧
    Written (given frameT1) (0x4000 + (given frameT1).arg3.toNat) (given frameT1).arg2.toNat := by decide +kernel

/-- One byte, two bytes of a read response, three, a write response, another function, and a failing frame. -/
theorem witness_RtuNeedTellsTheFrameLength :
    (str [0x01]).length < 2 ∧ ((str [0x01, 0x03]).length = 2 ∧ (str [0x01, 0x03])[1]? = some 0x03#8) ∧
    ((str [0x01, 0x03, 0xFF])[1]? = some 0x03#8 ∧ (str [0x01, 0x03, 0xFF])[2]? = some 0xFF#8) ∧
    (str [0x01, 0x10])[1]? = some 0x10#8 ∧ (str [0x01, 0x83])[1]? = some 0x83#8 ∧
    (rtuNeed (str [0x01, 0x03, 0x02]) = .total 7 ∧ (frameT1.set 6 0x9A#8).length = 7 ∧
      decodeRtu (frameT1.set 6 0x9A#8) = .invalid .checksumMismatch) := by decide +kernel

/-- Off; on and not full, in the three framings; full. -/
theorem witness_SyncPushRunsTheFramingStep :
    State.reset.ctrl.getLsbD 1 = false ∧ (listening 0b010#3 []).ctrl.getLsbD 1 = true ∧
    (listening 0b110#3 []).ctrl.getLsbD 2 = true ∧ (listening 0b011#3 []).ctrl.getLsbD 0 = true ∧
    ∃ s : State, s.ctrl.getLsbD 1 = true ∧ s.rxb.length = s.cfg.rxbufCap ∧ s.cfg.Legal :=
  ⟨rfl, rfl, rfl, rfl,
    ⟨{ listening 0b010#3 (List.replicate 260 0x3A#8) with cfg := { Config.defaultParams with rxbufCap := 260 } },
      rfl, List.length_replicate, by decide +kernel⟩⟩

/-- Y3, Y2, Y4's last byte (two bytes in `RXB`), and a byte inside a frame. -/
theorem witness_AsciiDelimiterStep :
    ((listening 0b010#3 []).rxb = [] ∧ 0x3A#8 = (listening 0b010#3 []).cfg.hdr) ∧
    0x41#8 ≠ (listening 0b010#3 []).cfg.hdr ∧
    (2 ≤ (listening 0b010#3 (str [0x3A, 0x0D])).rxb.length ∧
      (listening 0b010#3 (str [0x3A, 0x0D])).rxb.getLast? = some 0x0D#8) ∧
    ((listening 0b010#3 (str [0x3A])).rxb ≠ [] ∧ ¬ 2 ≤ (listening 0b010#3 (str [0x3A])).rxb.length) := by decide +kernel

/-- The header; fewer than 13 bytes; Y9 at the 13th byte; E3 incomplete, complete, and with a wrong tail. -/
theorem witness_AsciiDeclaredLengthStep :
    0x3A#8 = (listening 0b110#3 []).cfg.hdr ∧ 0x41#8 ≠ (listening 0b110#3 []).cfg.hdr ∧
    (frameE3.take 11 ++ [0x30#8]).length < 13 ∧
    (13 ≤ (frameE3.take 12 ++ [0x58#8]).length ∧ isDec ((frameE3.take 12 ++ [0x58#8]).getD 12 0) = false) ∧
    (isDec4 (frameE3.take 17 ++ [0x0D#8]) 9 = true ∧ (frameE3.take 17 ++ [0x0D#8]).length < 2 + 17) ∧
    (2 + 17 ≤ (frameE3.take 18 ++ [0x0A#8]).length ∧ (frameE3.take 18).getLast? = some 0x0D#8) ∧
    dec4At (frameE3.take 18 ++ [0x78#8]) 9 = 2 := by decide +kernel

theorem witness_RtuFramingStep :
    rtuNeed ([] ++ [0x01#8]) = .unknown ∧ rtuNeed ([0x01#8] ++ [0x83#8]) = .noFrame ∧
    rtuNeed (frameT1.take 6 ++ [0x9B#8]) = .total (frameT1.take 6 ++ [0x9B#8]).length ∧
    (rtuNeed (frameT1.take 2 ++ [0x02#8]) = .total 7 ∧ 7 ≠ (frameT1.take 2 ++ [0x02#8]).length) := by decide +kernel

/-- A held frame, a free register, and a record with data and one without. -/
theorem witness_DeliverRecordsTheResult :
    ({ State.reset with status := 0x01#7 } : State).status.getLsbD 0 = true ∧ State.reset.status.getLsbD 0 = false ∧
    recordT1.data = some (str [0x00, 0x2A]) ∧ ({ recordT1 with data := none } : FrameRec).data = none := by
  decide +kernel

/-- The default parameters are legal. -/
theorem legal_default : Config.defaultParams.Legal := by decide +kernel

/-- `RxbOk` of a state that is not the reset state: half of E2 is received. -/
theorem busy_rxbOk : RxbOk busy where
  fits := by decide +kernel
  off := by decide +kernel
  ascii := by decide +kernel
  delim := by decide +kernel
  declared := by decide +kernel
  rtuStart := by decide +kernel
  rtu := fun h => absurd h (by decide +kernel)

/-- The invariant of a state in the middle of a run. -/
theorem busy_inv : busy.Inv where
  params := legal_default
  mem := by decide +kernel
  rxb := busy_rxbOk
  frame :=
    { valid := by decide +kernel, none := by decide +kernel, ascii := by decide +kernel, rtuRead := by decide +kernel,
      rtuWrite := by decide +kernel }

/-- The invariant of a state that receives RTU frames: five bytes of T1 are in. -/
theorem listening_rtu_inv : (listening 0b011#3 (frameT1.take 5)).Inv where
  params := legal_default
  mem := reset_mem_wf
  rxb :=
    { fits := by decide +kernel, off := by decide +kernel, ascii := by decide +kernel, delim := by decide +kernel,
      declared := by decide +kernel, rtuStart := by decide +kernel,
      rtu := fun _ k h => by
        have h7 : rtuNeed (listening 0b011#3 (frameT1.take 5)).rxb = .total 7 := by decide +kernel
        rw [h7] at h
        cases h
        decide +kernel }
  frame :=
    { valid := by decide +kernel, none := by decide +kernel, ascii := by decide +kernel, rtuRead := by decide +kernel,
      rtuWrite := by decide +kernel }

/-- Inside a frame, and with an empty `RXB`. -/
theorem witness_DelimiterFramingIsTheAssembler :
    (busy.cfg.Legal ∧ RxbOk busy ∧ busy.rtuMode = false ∧ busy.syncLen = false) ∧
    (RxbOk State.reset ∧ State.reset.rtuMode = false ∧ State.reset.syncLen = false) :=
  ⟨⟨legal_default, busy_rxbOk, by decide +kernel, by decide +kernel⟩,
    ⟨{ fits := by decide +kernel, off := by decide +kernel, ascii := by decide +kernel, delim := by decide +kernel,
       declared := by decide +kernel, rtuStart := by decide +kernel, rtu := fun h => absurd h (by decide +kernel) },
      by decide +kernel, by decide +kernel⟩⟩

/-- E2, E3 and T1, whole; and E2 and T1 with a wrong checksum. -/
theorem witness_APushedFrameIsDeliveredOnce :
    ((listening 0b010#3 []).syncEn = true ∧ (listening 0b010#3 []).rtuMode = false ∧
      (listening 0b010#3 []).syncLen = false ∧ findTail (frameE2.drop 1) = some (slice frameE2 1 17).length ∧
      frameE2 = [0x3A#8] ++ slice frameE2 1 17 ++ [0x0D#8, 0x0A#8] ∧ frameE2.length ≤ 260) ∧
    ((listening 0b110#3 []).syncLen = true ∧ isDec4 (slice frameE3 1 17) 8 = true ∧
      (slice frameE3 1 17).length = dec4At (slice frameE3 1 17) 8 + 14) ∧
    ((listening 0b011#3 []).rtuMode = true ∧ rtuNeed frameT1 = .total frameT1.length) ∧
    decodeBody (slice (frameE2.set 15 0x38#8) 1 17) = .invalid .checksumMismatch ∧
    decodeRtu (frameT1.set 6 0x9A#8) = .invalid .checksumMismatch := by decide +kernel

/-- A delivery, an overflow and RTU framing, from states of the invariant. -/
theorem witness_AtMostOneDeliveryInAnAccess :
    (busy.Inv ∧ (after (exec (.syncPush 0x41#8) busy) (·.cntOk)).isSome = true) ∧
    ((listening 0b011#3 (frameT1.take 5)).Inv ∧ (listening 0b011#3 (frameT1.take 5)).rtuMode = true ∧
      (after (exec (.syncPush 0x39#8) (listening 0b011#3 (frameT1.take 5))) (·.cntOk)).isSome = true) :=
  ⟨⟨busy_inv, by decide +kernel⟩, listening_rtu_inv, by decide +kernel, by decide +kernel⟩

/-- Y15: from a full `RXB` the overflow counter moves. -/
theorem witness_AtMostOneDeliveryInAnAccess_overflow :
    after (exec (.syncPush 0x3A#8)
      { listening 0b010#3 (0x3A#8 :: List.replicate 259 0x30#8) with
        cfg := { Config.defaultParams with rxbufCap := 260 } })
      (fun t => (t.cntRxovf, t.status, t.rxb)) = some (1#32, 0x20#7, [0x3A#8]) := by decide +kernel

theorem witness_RegisterReadReturnsTheRegister :
    busy.rxb.length < 2 ^ 32 ∧ 0x074 ≤ (0x074#16).toNat ∧ (0x0FF#16).toNat < 0x100 := by decide +kernel

theorem witness_CtrlWriteDiscardsThePartialFrame :
    (0xFFFFFFFA#32).extractLsb' 0 3 = busy.ctrl ∧ (0x00000003#32).extractLsb' 0 3 ≠ busy.ctrl := by decide +kernel

theorem witness_InterruptIsTheOrOfEnabledStatusBits :
    ({ busy with crcAcc := 0#16 } : State).status = busy.status ∧
    ({ busy with crcAcc := 0#16 } : State).irqEn = busy.irqEn := by decide +kernel

theorem witness_BufferReadIsLittleEndian :
    Written busy (0xC000 + (0#14).toNat) 2 ∧ Readable drawing (0xC000 + (0x3FFF#14).toNat) 1 :=
  ⟨by decide +kernel, .inl rfl⟩

theorem witness_UnwrittenByteReadFaultsOrDraws :
    (State.reset.mem.read 0x4000 = none ∧ State.reset.cfg.uninitRead = .fault) ∧
    (drawing.mem.read 0xFFFF = none ∧ drawing.cfg.uninitRead = .draw) := by decide +kernel

theorem witness_ReadsHaveNoSideEffect :
    (after (exec (.bufRead .frp 0#14 .w16) busy) (·.responses)) = some [.data 0x2A00#32] ∧
    Written busy (0xC000 + (0#14).toNat) Width.w16.bytes := by decide +kernel

/-- The first values out of range. -/
theorem witness_BadArgumentsFailTheCommand :
    16384 < (16384#32).toNat + (1#32).toNat ∧ 9999 < (10000#32).toNat ∧
    127 < ((128#32).extractLsb' 0 16).toNat ∧ 16384 < (16383#32).toNat + 2 * ((1#32).extractLsb' 0 16).toNat ∧
    (after (exec .syncReset busy) (·.result)) = some 0#3 := by decide +kernel

theorem witness_FaultExactlyOnAnUnwrittenByte :
    faultOf (exec .crcBuf { State.reset with arg2 := 1#32 }) = some (.unwrittenByte 0x4000) ∧
    faultOf (step (asked .read .w8 0xFFFF 0#32)) = some (.unwrittenByte 0xFFFF) := by decide +kernel

/-- Instructions that go on, of each shape that the statement tells apart. -/
theorem witness_OperationsChangeOnlyTheirRegisters :
    (after (exec .decRtu (given frameT1)) (·.frKind)) = some 2#2 ∧
    (after (exec (.argWrite .arg0 1#32) busy) (·.arg0)) = some 1#32 ∧
    (after (exec .crcInit busy) (·.crcAcc)) = some 0xFFFF#16 ∧
    (after (exec (.statusW1c 0#6) busy) (·.status)) = some 0#7 := by decide +kernel

/-- A byte that changes in each buffer, the last one that the operation writes. -/
theorem witness_OperationsChangeOnlyTheirBuffers :
    (after (exec (.srcWrite 0x3FFE#14 .w16 0x0101#32) State.reset) (·.mem.read 0x7FFF)) = some (some 0x01#8) ∧
    (after (exec .encRtuRd State.reset) (·.mem.read 0x8001)) = some (some 0x03#8) ∧
    (after (exec .decRtu (given frameT1)) (·.mem.read 0xC001)) = some (some 0x2A#8) := by decide +kernel

theorem witness_NoStepChangesAParameter :
    (after (step (asked .write .w32 0x00 0x7#32)) (·.ctrl)) = some 0b111#3 := by decide +kernel

theorem witness_InvariantHoldsAfterReset :
    ({ Config.defaultParams with hdr := 0x24#8, rxbufCap := 260, base := 0x10000 } : Params).Legal := by decide +kernel

theorem witness_EveryStepKeepsTheInvariant :
    busy.Inv ∧ (after (step { busy with pending := [.access ⟨.write, .w32, 0x40, 0x41#32⟩] }) (·.rxb.length)) = some 15 :=
  ⟨busy_inv, by decide +kernel⟩

theorem witness_CanonicalMemoriesAreEqualWhenTheyReadEqual :
    Memory.wf (Memory.writeBytes (Memory.writeBytes [] 0x8000 (str [1])) 0x4000 (str [2])) ∧
    Memory.writeBytes (Memory.writeBytes [] 0x8000 (str [1])) 0x4000 (str [2]) =
      Memory.writeBytes (Memory.writeBytes [] 0x4000 (str [2])) 0x8000 (str [1]) := by decide +kernel

end Sys2Proof.Machine.Tests
end

/-- Settles O47: the bytes of a readable range are the bytes of the word that the read answers.

The rules of the host's accesses (spec/20_memory.md R86, R88, R94) and the other statements about them (O48, O49, O50)
stand under it as one short command, and no proof of theirs asks for an equation lemma: while the tests above are being
checked, the check's memory has no room for the threads of more commands. A statement under `where` keeps its name only
if its proof does not begin with `intro`; hence the `delta` of O48 and O49. -/
theorem Sys2Proof.Machine.bufferReadIsLittleEndian : Obligations.BufferReadIsLittleEndian := by
  intro s b i w a (ha : a = bufferBase b + i.toNat) hr
  subst ha
  obtain ⟨bs, d, hread, hs, hd⟩ := readBytes_of_readable hr
  have hlen : bs.length = w.bytes := hs.1
  have h4 : bs.length ≤ 4 := by rw [hlen]; cases w <;> decide
  have hv := toNat_ofNat_leValue h4
  refine ⟨bs, d, _, hs, by rw [exec_bufRead, hread]; rfl, hd, fun k hk => ?_, hv.trans_lt (hlen ▸ leValue_lt bs)⟩
  exact (getElem?_of_leValue (hlen ▸ hk)).trans (congrArg (fun n => some (BitVec.ofNat 8 (n >>> (8 * k)))) hv.symm)
where
  /-- A little-endian value holds byte `k` of its string from bit `8 * k` on. -/
  getElem?_of_leValue {bs : List Byte} {k : Nat} (h : k < bs.length) :
      bs[k]? = some (BitVec.ofNat 8 (leValue bs >>> (8 * k))) := by
    induction bs generalizing k with
    | nil => cases h
    | cons b bs ih =>
      cases k with
      | zero =>
        have hlow := (Nat.add_mul_mod_self_left b.toNat 256 (leValue bs)).trans (Nat.mod_eq_of_lt b.isLt)
        exact congrArg some (BitVec.eq_of_toNat_eq hlow.symm)
      | succ k =>
        have hdiv := Nat.add_mul_div_left b.toNat (leValue bs) (Nat.succ_pos 255)
        rw [Nat.div_eq_of_lt b.isLt, Nat.zero_add] at hdiv
        rw [Nat.mul_succ, Nat.add_comm (8 * k), Nat.shiftRight_add, Nat.shiftRight_eq_div_pow _ 8]
        have hrest := ih (Nat.lt_of_succ_lt_succ h)
        exact hrest.trans (congrArg (fun n => some (BitVec.ofNat 8 (n >>> (8 * k)))) hdiv.symm)
  /-- The value of at most four bytes fits a word. -/
  toNat_ofNat_leValue {bs : List Byte} (h : bs.length ≤ 4) : (BitVec.ofNat 32 (leValue bs)).toNat = leValue bs :=
    have hlt : leValue bs < 256 ^ 4 := (leValue_lt bs).trans_le (Nat.pow_le_pow_right (Nat.succ_pos 255) h)
    Nat.mod_eq_of_lt hlt
  /-- Written bytes have one value: what a read of them can have is what it has, and it draws no free byte. -/
  readBytes_of_written {s : State} {a n : Nat} {bs : List Byte} (hw : Written s a n) (hs : SliceOf s a n bs) :
      s.readBytes a n = Except.ok (bs, s) := by
    obtain ⟨bs', d, hread, ⟨hlen', hval'⟩, hdraws⟩ := readBytes_of_readable (.inr hw)
    obtain ⟨hlen, hval⟩ := hs
    have hbs : bs' = bs := by
      apply List.ext_getElem? fun k => ?_
      by_cases hk : k < n
      · obtain ⟨b, hb⟩ := Option.isSome_iff_exists.1 (hw k hk)
        exact (hval' k b hk hb).trans (hval k b hk hb).symm
      · have hk := Nat.le_of_not_lt hk
        exact (List.getElem?_eq_none (hlen' ▸ hk)).trans (List.getElem?_eq_none (hlen ▸ hk)).symm
    rw [hread, hbs, hdraws hw]
  /-- `BUF_READ` (R298): the fault of its bytes, or their value. -/
  exec_bufRead (s : State) (b : Buffer) (i : BitVec 14) (w : Width) : exec (Instr.bufRead b i w) s =
      match s.readBytes (bufferBase b + i.toNat) w.bytes with
      | Except.error f => Host.Outcome.fault f
      | Except.ok (bs, t) => Host.Outcome.next (t.respond (Response.data (BitVec.ofNat 32 (leValue bs)))) := rfl
  /-- Settles O48: the one byte of the read faults, or is the next free byte. -/
  unwrittenByteReadFaultsOrDraws : Obligations.UnwrittenByteReadFaultsOrDraws := by
    delta Obligations.UnwrittenByteReadFaultsOrDraws
    intro s b i a (ha : a = bufferBase b + i.toNat) hn
    subst ha
    have hone : s.readBytes (bufferBase b + i.toNat) Width.w8.bytes =
        match s.readByte (bufferBase b + i.toNat) with
        | Except.error f => Except.error f
        | Except.ok (b, t) => Except.ok ([b], t) := rfl
    rw [exec_bufRead, hone]
    delta State.readByte
    rw [hn]
    refine ⟨fun hu => by rw [hu], fun hu => ?_⟩
    rw [hu]
    exact congrArg (fun v => Host.Outcome.next ({ s with draws := s.draws + 1 }.respond (Response.data v)))
      (BitVec.ofNat_toNat 32 (Config.freeByte s.draws))
  /-- Settles O49: the memory after the write holds the data's bytes, and a read outside them sees none of it. -/
  srcWriteStoresTheBytes : Obligations.SrcWriteStoresTheBytes := by
    delta Obligations.SrcWriteStoresTheBytes
    intro s i w v
    have hl := length_dataBytes w v
    have hbytes : dataBytes w v = (List.range w.bytes).map (wordByte v) := by cases w <;> rfl
    refine ⟨_, rfl, rfl, fun k hk => ?_, fun x hx => Memory.read_writeBytes_outside _ (hl.symm ▸ hx)⟩
    refine (Memory.read_writeBytes_inside _ _ (hl.symm ▸ hk)).trans ?_
    rw [hbytes, List.getElem?_map, List.getElem?_range hk]
    rfl
  /-- Settles O50: registers do not depend on the responses, a buffer read only draws, and written bytes stay. -/
  readsHaveNoSideEffect : Obligations.ReadsHaveNoSideEffect := by
    refine ⟨fun s r => ⟨s.readReg r, rfl, rfl⟩, fun s t b i w h => ?_, ?_⟩
    · rw [exec_bufRead] at h
      cases hr : s.readBytes (bufferBase b + i.toNat) w.bytes with
      | error f => rw [hr] at h; cases h
      | ok p =>
        obtain ⟨bs, u⟩ := p
        rw [hr, (readBytes_ok hr).1] at h
        cases h
        rfl
    · intro s b i w a (ha : a = bufferBase b + i.toNat) hw
      subst ha
      obtain ⟨bs, -, -, hs, -⟩ := readBytes_of_readable (.inr hw)
      have hread := readBytes_of_written hw hs
      have hagain (x : Response) := readBytes_of_written (s := s.respond x) hw hs
      exact ⟨_, by rw [exec_bufRead, hread]; rfl, by rw [exec_bufRead]; exact hagain _ ▸ rfl⟩
